-- ==== Sys2Proof/Word.lean ====
section
/-! DEFINITION. The word types of NTDB-CORE (spec/00_scope.md R8, R10; spec/30_encoding.md R46, R54, R65). -/

namespace Sys2Proof

/-- One byte of the Display Buffer, one character code, one level (R14, R60, R64). -/
abbrev Byte := BitVec 8

/-- One command word, `CMD_W = 40` bits, presented whole at the command port (R8, R65). -/
abbrev CmdWord := BitVec 40

/-- One entry of the Digit Pattern Table: bit `i` selects glow wire `i` (R46). -/
abbrev Pattern := BitVec 10

/-- The 40-bit value of one board unit, byte 0 least significant (R12, R54). -/
abbrev UnitValue := BitVec 40

/-- A raw word, the 16-bit operand of CLEAR and PUTUNIT (R56). -/
abbrev RawWord := BitVec 16

/-- A line level: `false` is 0 (low), `true` is 1 (high) (R10). -/
abbrev Level := Bool

/-- A digit index, 0 to 10: 0 to 9 are the decimal digits, 10 is the dark sentinel (R50). -/
abbrev DigitIndex := Fin 11

end Sys2Proof
end

