-- ==== Sys2Proof/Config.lean ====
section
/-! DEFINITION. The parameters of the block (spec/00_scope.md R8): their types, and one opaque constant for each
parameter whose value the spec leaves OPEN. Nothing in Lean can evaluate these constants or prove a value of one. -/

namespace Sys2Proof

/-- The board count `N`, `1 ≤ N ≤ 255` (R8, R23; spec/92_eei_decisions.md D11). A count outside the range is
refused at construction (R136), so the type holds none. -/
structure BoardCount where
  count : Nat
  one_le : 1 ≤ count
  le_255 : count ≤ 255
deriving DecidableEq, Repr

/-- "board-chain count (default 1)" (R28). -/
def BoardCount.default : BoardCount := ⟨1, by decide, by decide⟩

/-- The six logical pin roles (R8, R15). -/
inductive PinRole where
  | data | clk | latch | oe | hv | ind
deriving DecidableEq, Repr

/-- The six pin identifiers, opaque numbers: no rule looks at one, the rules name the lines by role (R15). DESIGN CHOICE,
unsafe (notes/assumptions 29): two roles may have the same identifier. -/
structure Pins where
  data : Nat
  clk : Nat
  latch : Nat
  oe : Nat
  hv : Nat
  ind : Nat
deriving DecidableEq, Repr

/-- The Digit Pattern Table: 11 patterns, index 10 is the dark one (R16, R46). -/
abbrev PatternTable := Vector Pattern 11

/-- `RAW_EXPAND` as plain data: the function from raw words to unit values that has the listed rows, and the zero
unit at a word that no row lists. Every function from 16 bits to 40 bits is one of these
(`Laws.rawTable_represents_every_function`), so the type leaves the parameter as open as R57 does. -/
structure RawTable where
  rows : List (RawWord × UnitValue)
deriving DecidableEq, Repr, Inhabited

/-- The OPEN parameters of R8 that are neither construction arguments nor the pattern table. -/
structure Platform where
  /-- `RAW_EXPAND` (R57) -/
  rawTable : RawTable
  /-- `DEFAULT_BLANK`, "defaultBlank" (R58) -/
  defaultBlank : RawWord
  /-- `OE_PWM`: the output-enable pin supports variable pulse width (R8, R112) -/
  oePwm : Bool
  /-- `IND_PWM`: the indicator pin supports variable pulse width (R8, R114) -/
  indPwm : Bool
deriving DecidableEq, Repr

/-- The value of `PATTERN` (OPEN: R46, D7). -/
opaque Config.pattern : PatternTable

/-- The value of `RAW_EXPAND` (OPEN: R57, D9). -/
opaque Config.rawTable : RawTable

/-- The value of `DEFAULT_BLANK` (OPEN: R58, D10). -/
opaque Config.defaultBlank : RawWord

/-- Whether the output-enable pin has variable pulse width (OPEN: R8). -/
opaque Config.oePwm : Bool

/-- Whether the indicator pin has variable pulse width (OPEN: R8). -/
opaque Config.indPwm : Bool

/-- The pin identifier given for each role (a construction argument whose value is not given: R8). -/
opaque Config.pin : PinRole → Nat

/-- The pins of this machine. -/
def Config.pins : Pins where
  data := Config.pin .data
  clk := Config.pin .clk
  latch := Config.pin .latch
  oe := Config.pin .oe
  hv := Config.pin .hv
  ind := Config.pin .ind

/-- The platform of this machine. -/
def Config.platform : Platform where
  rawTable := Config.rawTable
  defaultBlank := Config.defaultBlank
  oePwm := Config.oePwm
  indPwm := Config.indPwm

/-- Named property `PATTERN_DISTINCT`: the 11 entries are pairwise different (R47). -/
abbrev PatternTable.Distinct (t : PatternTable) : Prop :=
  ∀ d e : DigitIndex, t.get d = t.get e → d = e

/-- Named property `DARK_ZERO`: the dark pattern is zero (R48, D8). -/
abbrev PatternTable.DarkZero (t : PatternTable) : Prop :=
  t.get 10 = 0

end Sys2Proof
end

