-- ==== Sys2Proof/Syntax.lean ====
section
/-! DEFINITION. The NTDB command set: one constructor per row of spec/opcode_table.json, with the operand types of
spec/30_encoding.md R56, R60 to R64, and the assembler's two pseudo-forms (R72). -/

namespace Sys2Proof

/-- The nine commands (R67). -/
inductive Instr where
  /-- SETNUM `number`, `mask`: the number is a signed integer (R61), the mask has one bit per position, bit 3
  thousands to bit 0 units (R52). -/
  | setnum (number : Int) (mask : BitVec 4)
  /-- SETTEXT: four character codes, `c0` leftmost (R60). -/
  | settext (c0 c1 c2 c3 : Byte)
  /-- CLEAR `fill` (R56). -/
  | clear (fill : RawWord)
  /-- PUTUNIT `index`, `word` (R56, R62). -/
  | putunit (index : BitVec 8) (word : RawWord)
  /-- DISPLAY (R93). -/
  | display
  /-- SHIFTB `order`, `byte` (R63). -/
  | shiftb (order : BitVec 4) (byte : Byte)
  /-- SETHV `on` (R64). -/
  | sethv (on : Bool)
  /-- SETBRT `level` (R64). -/
  | setbrt (level : BitVec 8)
  /-- SETIND `level` (R64). -/
  | setind (level : BitVec 8)
deriving DecidableEq, Repr

/-- The assembler's forms that are no command of their own (R72). -/
inductive Pseudo where
  /-- `CLEAR` with no operand -/
  | clearDefault
  /-- `TRANSMIT`, an alias of `DISPLAY` -/
  | transmit
deriving DecidableEq, Repr

end Sys2Proof
end

