-- ==== Sys2Proof/WellFormed.lean ====
section
/-! DEFINITION. Which terms of `Instr` are commands of the block (spec/30_encoding.md R61, R69). -/

namespace Sys2Proof

/-- `number` is a signed integer of `NUM_W = 32` bits, two's complement (R61). -/
def numberInRange (n : Int) : Bool :=
  decide (-2147483648 ≤ n) && decide (n ≤ 2147483647)

/-- A command is well formed when its operands fit their fields. Only `number` can fail to: the types of the other
operands hold exactly the values of their fields, all of which are legal (R69). -/
def Instr.wellFormed : Instr → Bool
  | .setnum number _ => numberInRange number
  | .settext _ _ _ _ => true
  | .clear _ => true
  | .putunit _ _ => true
  | .display => true
  | .shiftb _ _ => true
  | .sethv _ => true
  | .setbrt _ => true
  | .setind _ => true

end Sys2Proof
end

