-- ==== Sys2Proof/Decode.lean ====
section
/-! DEFINITION. The command word: decoder and encoder (spec/30_encoding.md R65 to R72). -/

namespace Sys2Proof

/-- What a command word decodes to: a command, or the reserved opcode it carries (R68). -/
inductive Decoded where
  | command (i : Instr)
  | reserved (op : BitVec 4)
deriving DecidableEq, Repr

/-- Field `op`, bits 39:36 (R65). -/
def opField (w : CmdWord) : BitVec 4 := w.extractLsb' 36 4

/-- Field `a`, bits 35:32 (R65). -/
def aField (w : CmdWord) : BitVec 4 := w.extractLsb' 32 4

/-- Field `p`, bits 31:0 (R65). -/
def pField (w : CmdWord) : BitVec 32 := w.extractLsb' 0 32

/-- The decoder: the opcode alone selects the command (R67), and only the bits its format names are looked at
(R66, R69). Total: every other opcode is reserved (R68). -/
def decode (w : CmdWord) : Decoded :=
  let p := pField w
  match (opField w).toNat with
  | 0x1 => .command (.setnum p.toInt (aField w))
  | 0x2 => .command (.settext (p.extractLsb' 24 8) (p.extractLsb' 16 8) (p.extractLsb' 8 8) (p.extractLsb' 0 8))
  | 0x3 => .command (.clear (p.extractLsb' 0 16))
  | 0x4 => .command (.putunit (p.extractLsb' 16 8) (p.extractLsb' 0 16))
  | 0x5 => .command .display
  | 0x6 => .command (.shiftb (aField w) (p.extractLsb' 0 8))
  | 0x8 => .command (.sethv (p.getLsbD 0))
  | 0x9 => .command (.setbrt (p.extractLsb' 0 8))
  | 0xA => .command (.setind (p.extractLsb' 0 8))
  | _ => .reserved (opField w)

/-- The command word that has bits `w` in its low `nbits` bits and zeros above. The block has one word length, so a
row's bits are the word. -/
def tableWord (nbits w : Nat) : CmdWord :=
  BitVec.ofNat 40 (w % 2 ^ nbits)

/-- The decoder on a row of spec/opcode_table.json: the command, or none for a reserved opcode. -/
def decodeTableWord (nbits w : Nat) : Option Instr :=
  match decode (tableWord nbits w) with
  | .command i => some i
  | .reserved _ => none

/-! ## The encoder -/

/-- The opcode of each command (R67). -/
def Instr.opcode : Instr → BitVec 4
  | .setnum _ _ => 0x1
  | .settext _ _ _ _ => 0x2
  | .clear _ => 0x3
  | .putunit _ _ => 0x4
  | .display => 0x5
  | .shiftb _ _ => 0x6
  | .sethv _ => 0x8
  | .setbrt _ => 0x9
  | .setind _ => 0xA

/-- Field `a` of each command, zero where it is reserved (R66, R69). -/
def Instr.operandA : Instr → BitVec 4
  | .setnum _ mask => mask
  | .settext _ _ _ _ => 0
  | .clear _ => 0
  | .putunit _ _ => 0
  | .display => 0
  | .shiftb order _ => order
  | .sethv _ => 0
  | .setbrt _ => 0
  | .setind _ => 0

/-- Field `p` of each command, its reserved bits zero (R66, R69). -/
def Instr.payload : Instr → BitVec 32
  | .setnum number _ => BitVec.ofInt 32 number
  | .settext c0 c1 c2 c3 => c0 ++ c1 ++ c2 ++ c3
  | .clear fill => (0#16) ++ fill
  | .putunit index word => (0#8) ++ index ++ word
  | .display => 0
  | .shiftb _ byte => (0#24) ++ byte
  | .sethv on => (0#31) ++ BitVec.ofBool on
  | .setbrt level => (0#24) ++ level
  | .setind level => (0#24) ++ level

/-- The encoder: `op ++ a ++ p` (R65). "An assembler writes them as zero" of the reserved bits (R69). -/
def encode (i : Instr) : CmdWord :=
  i.opcode ++ i.operandA ++ i.payload

/-- The bits that the format of opcode `op` names, the opcode's own four included (R65, R66). -/
def namedBits (op : BitVec 4) : CmdWord :=
  match op.toNat with
  | 0x1 => 0xFFFFFFFFFF
  | 0x2 => 0xF0FFFFFFFF
  | 0x3 => 0xF00000FFFF
  | 0x4 => 0xF000FFFFFF
  | 0x5 => 0xF000000000
  | 0x6 => 0xFF000000FF
  | 0x8 => 0xF000000001
  | 0x9 => 0xF0000000FF
  | 0xA => 0xF0000000FF
  | _ => 0xF000000000

/-! ## The assembler's forms (R71, R72) -/

/-- The command a pseudo-form stands for (R72). -/
def Pseudo.expand (p : Platform) : Pseudo → Instr
  | .clearDefault => .clear p.defaultBlank
  | .transmit => .display

/-- A bit as the assembler writes it. -/
def bitText (b : Bool) : String := if b then "1" else "0"

/-- The line of a program that stands for a command (R71). -/
def Instr.asmLine : Instr → String
  | .setnum number mask =>
    "SETNUM " ++ toString number ++ ", 0b" ++ bitText (mask.getLsbD 3) ++ bitText (mask.getLsbD 2)
      ++ bitText (mask.getLsbD 1) ++ bitText (mask.getLsbD 0)
  | .settext c0 c1 c2 c3 =>
    "SETTEXT \"" ++ String.ofList ([c0, c1, c2, c3].map fun c => Char.ofNat c.toNat) ++ "\""
  | .clear fill => "CLEAR " ++ toString fill.toNat
  | .putunit index word => "PUTUNIT " ++ toString index.toNat ++ ", " ++ toString word.toNat
  | .display => "DISPLAY"
  | .shiftb order byte => "SHIFTB " ++ toString order.toNat ++ ", " ++ toString byte.toNat
  | .sethv on => "SETHV " ++ bitText on
  | .setbrt level => "SETBRT " ++ toString level.toNat
  | .setind level => "SETIND " ++ toString level.toNat

end Sys2Proof
end

