-- ==== Sys2Proof/Machine/Operands.lean ====
section
/-! DEFINITION. What the commands compute from their operands: digits, text, packing, raw words, the unit index
(spec/30_encoding.md R50 to R63, spec/40_digit_encoder.md R74 to R77). -/

namespace Sys2Proof.Machine

/-- `clamp(lo, hi, x)` (R10). -/
def clamp (lo hi x : Int) : Int := if x < lo then lo else if x > hi then hi else x

/-- `Clamp(n)`: the number within `0..9999` (R74). -/
def clampNumber (n : Int) : Nat := (clamp 0 9999 n).toNat

/-- The dark sentinel, index 10 (R50). -/
def darkIndex : DigitIndex := 10

/-- `x mod 10` as a digit index (R50). -/
def decimalDigit (x : Nat) : DigitIndex := ⟨x % 10, by omega⟩

/-- Four values, one for each digit position (R51). -/
structure Positions (α : Type) where
  thousands : α
  hundreds : α
  tens : α
  units : α
deriving DecidableEq, Repr

/-- `Digits(n, m)`: the digit of the clamped number where the mask bit is set, the dark index elsewhere (R52, R75). -/
def digits (n : Int) (m : BitVec 4) : Positions DigitIndex where
  thousands := if m.getLsbD 3 then decimalDigit (clampNumber n / 1000) else darkIndex
  hundreds := if m.getLsbD 2 then decimalDigit (clampNumber n / 100) else darkIndex
  tens := if m.getLsbD 1 then decimalDigit (clampNumber n / 10) else darkIndex
  units := if m.getLsbD 0 then decimalDigit (clampNumber n) else darkIndex

/-- What the character at a position counted from the left adds: `(digit × 1000) div 10^i` for a decimal digit,
nothing otherwise (R60, R77). -/
def textContribution (i : Nat) (c : Byte) : Nat :=
  if 0x30 ≤ c.toNat ∧ c.toNat ≤ 0x39 then (c.toNat - 0x30) * 1000 / 10 ^ i else 0

/-- `TextValue(c0, c1, c2, c3)` (R77). -/
def textValue (c0 c1 c2 c3 : Byte) : Nat :=
  textContribution 0 c0 + textContribution 1 c1 + textContribution 2 c2 + textContribution 3 c3

/-- The five bytes of R53 for the patterns of the four positions, byte 0 first. -/
def packBytes (p : Positions Pattern) : List Byte :=
  [ p.units.extractLsb' 0 8,
    (p.units.extractLsb' 8 2).setWidth 8 ||| (p.tens.extractLsb' 0 6).setWidth 8 <<< 2,
    (p.tens.extractLsb' 6 4).setWidth 8 ||| (p.hundreds.extractLsb' 0 4).setWidth 8 <<< 4,
    (p.hundreds.extractLsb' 4 6).setWidth 8 ||| (p.thousands.extractLsb' 0 2).setWidth 8 <<< 6,
    p.thousands.extractLsb' 2 8 ]

/-- The number a list of bytes denotes, the first byte least significant (R53: `byte4 ++ ... ++ byte0`). -/
def joinBytes (bs : List Byte) : UnitValue :=
  bs.getD 4 0 ++ bs.getD 3 0 ++ bs.getD 2 0 ++ bs.getD 1 0 ++ bs.getD 0 0

/-- The unit value of four patterns (R53). -/
def packPatterns (p : Positions Pattern) : UnitValue := joinBytes (packBytes p)

/-- The patterns of four digit indices, looked up in the table (R46, R53). -/
def lookup (t : PatternTable) (d : Positions DigitIndex) : Positions Pattern where
  thousands := t.get d.thousands
  hundreds := t.get d.hundreds
  tens := t.get d.tens
  units := t.get d.units

/-- `Pack(k, h, t, u)` (R53). -/
def pack (t : PatternTable) (d : Positions DigitIndex) : UnitValue := packPatterns (lookup t d)

/-- `DarkUnit = Pack(10, 10, 10, 10)` (R81). -/
def darkUnit (t : PatternTable) : UnitValue := pack t ⟨darkIndex, darkIndex, darkIndex, darkIndex⟩

/-- `Unpack`: the four patterns of a unit value. No operation of the hardware; a function for tests and proofs (R55). -/
def unpack (v : UnitValue) : Positions Pattern where
  thousands := v.extractLsb' 30 10
  hundreds := v.extractLsb' 20 10
  tens := v.extractLsb' 10 10
  units := v.extractLsb' 0 10

/-- The digit index recovered from a pattern: the first whose entry equals it, none for a pattern equal to no entry
(R55). -/
def digitOf (t : PatternTable) (p : Pattern) : Option DigitIndex :=
  (List.finRange 11).find? fun d => t.get d == p

/-- `RAW_EXPAND` (R57). -/
def rawExpand (t : RawTable) (w : RawWord) : UnitValue := (t.rows.lookup w).getD 0

/-- `index mod N`, the unit that PUTUNIT writes (R62, R80). -/
def wrapIndex (n : BoardCount) (index : BitVec 8) : Nat := index.toNat % n.count

/-- Named property `RAW_BLANK`: the default blank expands to the unit that is dark in all positions (R58). -/
abbrev RawBlank (t : PatternTable) (p : Platform) : Prop :=
  rawExpand p.rawTable p.defaultBlank = darkUnit t

end Sys2Proof.Machine
end

