-- ==== Sys2Proof/Machine/State.lean ====
section
/-! DEFINITION. The state of NTDB-CORE and of the chain behind it (spec/10_state.md R13 to R29), the reasons a step can
stop, and the state after reset (R28). -/

namespace Sys2Proof.Machine

/-- The faults of the machine: none. "the step function of the block is total and has no fault outcome for any
command word" (R120), so no constructor stands here, nothing raises one, and that is safe. -/
inductive Fault where
deriving DecidableEq, Repr

/-- What the model refuses. -/
inductive Refusal where
  /-- An instruction without a meaning. Raised by no arm of `exec` in this model: every command has its meaning.
  Safe: a refusal proves nothing about the hardware. -/
  | notModelled (mnemonic : String)
  /-- A board count outside 1 to 255. Raised by `State.construct` only, never by a step: "`N = 0` is not a legal
  construction ... a model refuses it" (R136; D11 for 255). Safe. -/
  | boardCount (n : Nat)
deriving DecidableEq, Repr

/-- The three lines of the bus (R90). -/
inductive Line where
  | data | clk | latch
deriving DecidableEq, Repr

/-- One line-write event, "write `level` to `line`" (R27, R90). -/
structure Event where
  line : Line
  level : Level
deriving DecidableEq, Repr

/-- Where the transmitter's walk stands: byte index `seq_i` and bit step `seq_j` (R19). -/
structure SeqPos where
  byteIx : Nat
  bitIx : Nat
deriving DecidableEq, Repr

/-- The Display Buffer's contents by address, in one canonical form: addresses strictly rising and no entry equal to
the byte an unlisted address reads as (`unlistedByte` in Ops.lean). -/
abbrev Memory := List Host.Cell

/-- The complete state (R13), the chain's state (R25, R26), the event trace (R27), and two fields of the model's own:
`platform` and `port`. -/
structure State where
  /-- `N`, the board count; constant (R15) -/
  boards : BoardCount
  /-- `PIN_*`, the pin identifiers; constant (R15) -/
  pins : Pins
  /-- `PATTERN`, the Digit Pattern Table; constant (R16) -/
  pattern : PatternTable
  /-- The remaining OPEN parameters of R8; constant. The model's own field. -/
  platform : Platform
  /-- `BUF`, the Display Buffer, byte addresses `0` to `5N - 1` (R14, R30) -/
  buf : Memory
  /-- `DATA`, the level last written to the data line (R17) -/
  data : Level
  /-- `CLK`, the level last written to the clock line (R17) -/
  clk : Level
  /-- `LATCH`, the level last written to the latch line (R17) -/
  latch : Level
  /-- `HV`, high-voltage enable (R18) -/
  hv : Bool
  /-- `BRT`, brightness level (R18) -/
  brt : BitVec 8
  /-- `IND`, indicator level (R18) -/
  ind : BitVec 8
  /-- `seq_i`, `seq_j`: present only inside a DISPLAY or SHIFTB (R19) -/
  seq : Option SeqPos
  /-- `SR`, the shift chain: index 0 is the oldest bit, the last the most recently captured (R25) -/
  sr : List Bool
  /-- `VIS`, the visible outputs (R26) -/
  vis : List Bool
  /-- The event trace, oldest event first (R27) -/
  trace : List Event
  /-- The command words the caller presents, the next one first (R65, R143, R149). The model's own field. -/
  port : List CmdWord
deriving DecidableEq, Repr

/-- `L = 40 × N`, the number of bits of `SR` and of `VIS` (R25). -/
def State.chainLength (s : State) : Nat := 40 * s.boards.count

/-- `5 × N`, the number of bytes of `BUF` (R14). -/
def State.bufLength (s : State) : Nat := 5 * s.boards.count

/-- The machine right after reset (R28), with the default board count and nothing at the port. `BUF` is zero and the
trace is empty as R28 says. DESIGN CHOICE, unsafe (notes/assumptions 3 and 4): R28 leaves `DATA`, `CLK`, `LATCH`,
`HV`, `BRT`, `IND`, `SR` and `VIS` unspecified, and this one state has them zero; `State.construct` (Ops.lean) gives
the reset state for every value of them, and the statements about reset are about `State.construct`. -/
def State.reset : State where
  boards := BoardCount.default
  pins := Config.pins
  pattern := Config.pattern
  platform := Config.platform
  buf := []
  data := false
  clk := false
  latch := false
  hv := false
  brt := 0
  ind := 0
  seq := none
  sr := List.replicate 40 false
  vis := List.replicate 40 false
  trace := []
  port := []

end Sys2Proof.Machine
end

