-- ==== Sys2Proof/Machine/Ops.lean ====
section
/-! DEFINITION. The named operations over the Display Buffer, the lines and the chain, the fetch of a command from the
port, and the moves of the outside world that are not commands: construction and the loss of power. There is no
operation that takes an exception and none that returns from one: the block has neither (spec/60_exceptions.md R120,
R128, R129). -/

namespace Sys2Proof.Machine

/-! ## The Display Buffer (spec/20_memory.md) -/

/-- What an unlisted address reads as: the reset contents of `BUF`, `0x00` (R28). -/
def unlistedByte : Byte := 0x00

/-- `BUF[a]`. No command names an address at or above `5N` (R34); such an address is never listed. -/
def Memory.read : Memory → Nat → Byte
  | [], _ => unlistedByte
  | (c, v) :: rest, a => if a = c then v else Memory.read rest a

/-- The contents without what is listed at `a`. -/
def Memory.erase (m : Memory) (a : Nat) : Memory := m.filter fun c => c.1 != a

/-- The contents with one more entry, in its place by address. -/
def Memory.insert : Memory → Nat → Byte → Memory
  | [], a, b => [(a, b)]
  | (c, v) :: rest, a, b => if a < c then (a, b) :: (c, v) :: rest else (c, v) :: Memory.insert rest a b

/-- `BUF[a] <- b`, keeping the canonical form. -/
def Memory.write (m : Memory) (a : Nat) (b : Byte) : Memory :=
  if b = unlistedByte then Memory.erase m a else Memory.insert (Memory.erase m a) a b

/-- `MemWrite` of consecutive bytes from address `a` upward (R11). -/
def Memory.writeBytes : Memory → Nat → List Byte → Memory
  | m, _, [] => m
  | m, a, b :: bs => Memory.writeBytes (Memory.write m a b) (a + 1) bs

/-- The five bytes of a unit value, byte `i` being bits `8i+7:8i` (R11, R54). -/
def unitBytes (v : UnitValue) : List Byte :=
  (List.range 5).map fun i => v.extractLsb' (8 * i) 8

/-- `UNIT[u] <- v`: all five bytes of the slice at byte `5u` (R11, R31). -/
def Memory.writeUnit (m : Memory) (u : Nat) (v : UnitValue) : Memory :=
  Memory.writeBytes m (5 * u) (unitBytes v)

/-- `UNIT[u]`: the slice at byte `5u`, byte 0 least significant (R11, R31). -/
def Memory.readUnit (m : Memory) (u : Nat) : UnitValue :=
  Memory.read m (5 * u + 4) ++ Memory.read m (5 * u + 3) ++ Memory.read m (5 * u + 2) ++ Memory.read m (5 * u + 1)
    ++ Memory.read m (5 * u)

/-- The canonical form from address `lo` upward: addresses strictly rising, none listed with the unlisted byte. -/
def Memory.wfFrom : Nat → Memory → Bool
  | _, [] => true
  | lo, (a, b) :: rest => decide (lo ≤ a) && b != unlistedByte && Memory.wfFrom (a + 1) rest

/-- The canonical form holds. -/
def Memory.wf (m : Memory) : Bool := Memory.wfFrom 0 m

/-- Every listed address lies below `n`. -/
def Memory.below (n : Nat) (m : Memory) : Bool := m.all fun c => decide (c.1 < n)

/-- `UNIT[u]` of the state's buffer. -/
def State.unit (s : State) (u : Nat) : UnitValue := Memory.readUnit s.buf u

/-- `UNIT[u] <- v` in the state's buffer. -/
def State.writeUnit (s : State) (u : Nat) (v : UnitValue) : State :=
  { s with buf := Memory.writeUnit s.buf u v }

/-- `UNIT[u] <- v` for each `u` of a list, in its order. -/
def State.fillUnits (v : UnitValue) : List Nat → State → State
  | [], s => s
  | u :: us, s => State.fillUnits v us (s.writeUnit u v)

/-! ## Lines and chain (spec/41_bus_transmitter.md) -/

/-- The level a line holds (R17). -/
def State.level (s : State) : Line → Level
  | .data => s.data
  | .clk => s.clk
  | .latch => s.latch

/-- Whether an event is a rising edge of a line: it writes 1 to the line, and the line was at 0 just before (R98). -/
def State.isRising (s : State) (line : Line) (e : Event) : Bool :=
  e.line == line && e.level && !s.level line

/-- `Emit(line, level)`: the line register of that name takes the level and the event joins the trace (R90). The chain
reacts to a rising clock edge by shifting the data level in (R99) and to a rising latch edge by copying itself to the
visible outputs (R100); no other event moves it (R98). -/
def State.emit (s : State) (e : Event) : State :=
  { s with
    data := if e.line = .data then e.level else s.data
    clk := if e.line = .clk then e.level else s.clk
    latch := if e.line = .latch then e.level else s.latch
    sr := if s.isRising .clk e then s.sr.drop 1 ++ [s.data] else s.sr
    vis := if s.isRising .latch e then s.sr else s.vis
    trace := s.trace ++ [e] }

/-- Several events in order. -/
def State.emitAll : List Event → State → State
  | [], s => s
  | e :: es, s => State.emitAll es (s.emit e)

/-- One event of a transmission, with the place of the walk at which it is sent; none once the walk is over (R19). -/
structure Tick where
  pos : Option SeqPos
  event : Event
deriving DecidableEq, Repr

/-- One event of a transmission carried out. -/
def State.tick (s : State) (t : Tick) : State :=
  { s.emit t.event with seq := t.pos }

/-- Events of a transmission carried out in order. -/
def State.ticks : List Tick → State → State
  | [], s => s
  | t :: ts, s => State.ticks ts (s.tick t)

/-- A whole transmission: afterwards the walk is what it was before, for `seq_i` and `seq_j` "exist only inside one
command" (R19). -/
def State.transmit (s : State) (ts : List Tick) : State :=
  { State.ticks ts s with seq := s.seq }

/-- `BitOut(b)` at a place of the walk: data, clock low, clock high (R91). -/
def bitOut (pos : SeqPos) (b : Bool) : List Tick :=
  [⟨some pos, ⟨.data, b⟩⟩, ⟨some pos, ⟨.clk, false⟩⟩, ⟨some pos, ⟨.clk, true⟩⟩]

/-- The bit of `v` that `ShiftByte(order, v)` sends at step `j`, or none for an unsupported order (R63, R92). -/
def shiftBit (order : BitVec 4) (v : Byte) (j : Nat) : Option Bool :=
  if order = 0 then some (v.getLsbD j)
  else if order = 1 then some (v.getLsbD (7 - j))
  else none

/-- `ShiftByte(order, v)` with the byte index `i` of the walk: eight steps, or nothing for an unsupported order
(R92). -/
def shiftByte (i : Nat) (order : BitVec 4) (v : Byte) : List Tick :=
  (List.range 8).flatMap fun j =>
    match shiftBit order v j with
    | some b => bitOut ⟨i, j⟩ b
    | none => []

/-- The latch pulse: low, then high, exactly once (R93). -/
def latchPulse : List Tick :=
  [⟨none, ⟨.latch, false⟩⟩, ⟨none, ⟨.latch, true⟩⟩]

/-- The events of DISPLAY over a buffer of `n` bytes: every byte in ascending order, least significant bit first, then
the latch pulse (R93). The bytes are a snapshot of the buffer when the command is accepted (R105). -/
def displayTicks (n : Nat) (m : Memory) : List Tick :=
  ((List.range n).flatMap fun i => shiftByte i 0 (Memory.read m i)) ++ latchPulse

/-! ## The command port (R149) -/

/-- The word the caller presents next, with the state once the block has taken it; none when no word waits. -/
def State.fetch (s : State) : Option (CmdWord × State) :=
  match s.port with
  | [] => none
  | w :: rest => some (w, { s with port := rest })

/-- A word put at the port in front of those that wait there. -/
def State.present (s : State) (w : CmdWord) : State :=
  { s with port := w :: s.port }

/-- A reserved opcode is accepted and does nothing (R68). -/
def execReserved (_op : BitVec 4) (s : State) : State := s

/-- With no command the block is idle, and "idle keeps all state" (R135). -/
def idle (s : State) : State := s

/-! ## Construction (spec/70_reset_and_hazards.md R136) -/

/-- What R28 leaves unspecified after reset: one draw of it. Bit `k` of `sr` is `SR[k]`, and so for `vis`. -/
structure Draw where
  data : Level
  clk : Level
  latch : Level
  hv : Bool
  brt : BitVec 8
  ind : BitVec 8
  sr : Nat
  vis : Nat
deriving DecidableEq, Repr

/-- The low `n` bits of a number, bit 0 first. -/
def bitsOf (n v : Nat) : List Bool := (List.range n).map v.testBit

/-- Reset: the block constructed with board count `n` and the six pins, on a platform with a given table, for one draw
of what reset leaves unspecified (R28, R136). It emits no event (R137). A count outside 1 to 255 is refused (R136,
D11). DESIGN CHOICE, unsafe (notes/assumptions 29): the spec gives pin identifiers that coincide within one instance no
meaning (spec/91_not_in_source.md N19); every six pins are accepted here, and the six lines are independent by role even
where two roles have one identifier. -/
def State.construct (n : Nat) (pins : Pins) (pattern : PatternTable) (platform : Platform) (d : Draw) :
    Host.Outcome State Fault Refusal :=
  if h : 1 ≤ n ∧ n ≤ 255 then
    .next {
      boards := ⟨n, h.1, h.2⟩, pins := pins, pattern := pattern, platform := platform, buf := [],
      data := d.data, clk := d.clk, latch := d.latch, hv := d.hv, brt := d.brt, ind := d.ind, seq := none,
      sr := bitsOf (40 * n) d.sr, vis := bitsOf (40 * n) d.vis, trace := [], port := [] }
  else .refused (.boardCount n)

end Sys2Proof.Machine
end

