-- ==== Sys2Proof/Machine/Encoder.lean ====
section
/-! DEFINITION. The Digit Encoder family: SETNUM, SETTEXT, CLEAR, PUTUNIT (spec/40_digit_encoder.md). The four write
`BUF` and nothing else (R73). -/

namespace Sys2Proof.Machine

/-- The encoder's number path: `UNIT[0] <- Pack(Digits(number, mask))` (R76). -/
def encodeNumber (number : Int) (mask : BitVec 4) (s : State) : State :=
  s.writeUnit 0 (pack s.pattern (digits number mask))

/-- SETNUM (R76). -/
def execSetnum (number : Int) (mask : BitVec 4) (s : State) : Host.Outcome State Fault Refusal :=
  .next (encodeNumber number mask s)

/-- SETTEXT: the number path with the accumulated value and the fixed "all visible" mask (R78). -/
def execSettext (c0 c1 c2 c3 : Byte) (s : State) : Host.Outcome State Fault Refusal :=
  .next (encodeNumber (textValue c0 c1 c2 c3) 0b1111 s)

/-- CLEAR: the fill's expansion into every unit (R79). -/
def execClear (fill : RawWord) (s : State) : Host.Outcome State Fault Refusal :=
  .next (State.fillUnits (rawExpand s.platform.rawTable fill) (List.range s.boards.count) s)

/-- PUTUNIT: the word's expansion into unit `index mod N` (R80). -/
def execPutunit (index : BitVec 8) (word : RawWord) (s : State) : Host.Outcome State Fault Refusal :=
  .next (s.writeUnit (wrapIndex s.boards index) (rawExpand s.platform.rawTable word))

end Sys2Proof.Machine
end

