-- ==== Sys2Proof/Machine/Power.lean ====
section
/-! DEFINITION. The power and brightness family: SETHV, SETBRT, SETIND (spec/42_power_brightness.md), and what is lit
(R113). -/

namespace Sys2Proof.Machine

/-- SETHV: `HV <- on` (R111). -/
def execSethv (on : Bool) (s : State) : Host.Outcome State Fault Refusal :=
  .next { s with hv := on }

/-- SETBRT: `BRT <- level` (R112). -/
def execSetbrt (level : BitVec 8) (s : State) : Host.Outcome State Fault Refusal :=
  .next { s with brt := level }

/-- SETIND: `IND <- level` (R114). -/
def execSetind (level : BitVec 8) (s : State) : Host.Outcome State Fault Refusal :=
  .next { s with ind := level }

/-- A level as the eye sees it, counted in 255ths: proportional with pulse-width support, else all or nothing by a
zero-vs-nonzero test (R112, R114). -/
def visibleLevel (pwm : Bool) (level : BitVec 8) : Nat :=
  if pwm then level.toNat else if level = 0 then 0 else 255

/-- The effective brightness, in 255ths (R112). -/
def State.effectiveBrightness (s : State) : Nat := visibleLevel s.platform.oePwm s.brt

/-- The indicator's intensity, in 255ths (R114). -/
def State.indicatorIntensity (s : State) : Nat := visibleLevel s.platform.indPwm s.ind

/-- The duty value given to the output-enable pin where it supports pulse width: inverted, `255 - level` (R112, D16). -/
def State.oeDuty (s : State) : Nat := 255 - s.brt.toNat

/-- The duty value given to the indicator pin where it supports pulse width: not inverted (R114, D16). -/
def State.indicatorDuty (s : State) : Nat := s.ind.toNat

/-- Whether glow wire `i` of digit field `q` of board `b` is lit (R113). -/
def State.lit (s : State) (b q i : Nat) : Bool :=
  s.vis.getD (40 * b + 10 * q + i) false && s.hv && decide (0 < s.effectiveBrightness)

end Sys2Proof.Machine
end

