-- ==== Sys2Proof/Machine/Transmitter.lean ====
section
/-! DEFINITION. The Bus Transmitter family: DISPLAY, SHIFTB (spec/41_bus_transmitter.md), what a board shows (R101), and
the loss of power inside a command (R102). -/

namespace Sys2Proof.Machine

/-- DISPLAY: the whole buffer walk, then the latch pulse (R93). -/
def execDisplay (s : State) : Host.Outcome State Fault Refusal :=
  .next (s.transmit (displayTicks s.bufLength s.buf))

/-- SHIFTB: the shift primitive alone, no latch pulse (R96). -/
def execShiftb (order : BitVec 4) (byte : Byte) (s : State) : Host.Outcome State Fault Refusal :=
  .next (s.transmit (shiftByte 0 order byte))

/-- The events of a command, in order: DISPLAY and SHIFTB have some, the others none (R73, R93, R96, R110). -/
def commandTicks (s : State) : Instr → List Tick
  | .setnum _ _ => []
  | .settext _ _ _ _ => []
  | .clear _ => []
  | .putunit _ _ => []
  | .display => displayTicks s.bufLength s.buf
  | .shiftb order byte => shiftByte 0 order byte
  | .sethv _ => []
  | .setbrt _ => []
  | .setind _ => []

/-- Power lost inside a command, after its first `k` events: the state at the cut, where the run ends (R102, D18).
None when the command has no more than `k` events, for then it has completed. -/
def State.cutPower (s : State) (i : Instr) (k : Nat) : Option State :=
  if k < (commandTicks s i).length then some (State.ticks ((commandTicks s i).take k) s) else none

/-- `VisPattern(b, q) = VIS[40b + 10q + 9 : 40b + 10q]`, the pattern visible at field `q` of board `b` (R101), bit 0
first. -/
def State.visPattern (s : State) (b q : Nat) : List Bool :=
  (s.vis.drop (40 * b + 10 * q)).take 10

end Sys2Proof.Machine
end

