-- ==== Sys2Proof/Machine/Dispatch.lean ====
section
/-! DEFINITION. One arm per command (spec/30_encoding.md R67). -/

namespace Sys2Proof.Machine

/-- The command run to completion (R9). -/
def exec (i : Instr) (s : State) : Host.Outcome State Fault Refusal :=
  match i with
  | .setnum number mask => Sys2Proof.Machine.execSetnum number mask s
  | .settext c0 c1 c2 c3 => Sys2Proof.Machine.execSettext c0 c1 c2 c3 s
  | .clear fill => Sys2Proof.Machine.execClear fill s
  | .putunit index word => Sys2Proof.Machine.execPutunit index word s
  | .display => Sys2Proof.Machine.execDisplay s
  | .shiftb order byte => Sys2Proof.Machine.execShiftb order byte s
  | .sethv on => Sys2Proof.Machine.execSethv on s
  | .setbrt level => Sys2Proof.Machine.execSetbrt level s
  | .setind level => Sys2Proof.Machine.execSetind level s

end Sys2Proof.Machine
end

