-- ==== Sys2Proof/Machine/Step.lean ====
section
/-! DEFINITION. One step: the block takes the next command word from the port and runs it to completion
(spec/00_scope.md R9, spec/70_reset_and_hazards.md R149). -/

namespace Sys2Proof.Machine

/-- With no word at the port the block is idle; a reserved opcode is accepted and does nothing; every other word is
decoded and its command run (R68, R135). -/
def step (s : State) : Host.Outcome State Fault Refusal :=
  match s.fetch with
  | none => .next (idle s)
  | some (w, t) =>
    match decode w with
    | .command i => exec i t
    | .reserved op => .next (execReserved op t)

/-- `s` with the word of an opcode-table row presented at the port, in front of what waits there: the next step takes
exactly it. -/
def State.withFetchWord (s : State) (nbits w : Nat) : State :=
  s.present (tableWord nbits w)

end Sys2Proof.Machine
end

