-- ==== Sys2Proof/Machine/Flags.lean ====
section
/-! DEFINITION. The block has no flag, no condition code and no status (spec/10_state.md R22): no command computes one.
What stands here is the list of the silent corrections (spec/60_exceptions.md R121 to R125): the conditions that another
design would flag, and the command that is done instead. Nothing of the machine reads it: "Recorded: nothing". -/

namespace Sys2Proof.Machine

/-- The conditions of the table of R125. -/
inductive Correction where
  /-- `number` outside 0..9999: clamped (R121) -/
  | numericRange
  /-- `index ≥ N`: wrapped modulo `N` (R122) -/
  | unitIndex
  /-- an `order` other than 0 and 1: nothing is sent (R123) -/
  | bitOrder
  /-- a reserved opcode: nothing is done (R124) -/
  | reservedOpcode
  /-- reserved bits set: ignored (R124) -/
  | reservedBits
deriving DecidableEq, Repr

/-- The corrections of a command's operands. -/
def operandCorrections (n : BoardCount) : Instr → List Correction
  | .setnum number _ => if number < 0 ∨ number > 9999 then [.numericRange] else []
  | .settext _ _ _ _ => []
  | .clear _ => []
  | .putunit index _ => if index.toNat ≥ n.count then [.unitIndex] else []
  | .display => []
  | .shiftb order _ => if order.toNat ≥ 2 then [.bitOrder] else []
  | .sethv _ => []
  | .setbrt _ => []
  | .setind _ => []

/-- The command with its operand corrected: the number clamped (R121), the index wrapped (R122); none where the
correction is that nothing is done (R123). A command without a correctable operand stays as it is. -/
def corrected (n : BoardCount) : Instr → Option Instr
  | .setnum number mask => some (.setnum (clampNumber number) mask)
  | .settext c0 c1 c2 c3 => some (.settext c0 c1 c2 c3)
  | .clear fill => some (.clear fill)
  | .putunit index word => some (.putunit (BitVec.ofNat 8 (wrapIndex n index)) word)
  | .display => some .display
  | .shiftb order byte => if order.toNat ≥ 2 then none else some (.shiftb order byte)
  | .sethv on => some (.sethv on)
  | .setbrt level => some (.setbrt level)
  | .setind level => some (.setind level)

/-- The corrections of a command word: reserved bits first, "before and independently of the operand correction"
(R127). -/
def wordCorrections (n : BoardCount) (w : CmdWord) : List Correction :=
  match decode w with
  | .command i => (if w &&& namedBits (opField w) = w then [] else [.reservedBits]) ++ operandCorrections n i
  | .reserved _ => [.reservedOpcode]

end Sys2Proof.Machine
end

