-- ==== Sys2Proof/Safety.lean ====
section
/-! DEFINITION. What the statements speak of: the invariant between commands, runs of commands, and counts over the
event trace. -/

namespace Sys2Proof

/-- The commands that write `BUF` (R14). -/
def Instr.writesBuf : Instr → Bool
  | .setnum _ _ => true
  | .settext _ _ _ _ => true
  | .clear _ => true
  | .putunit _ _ => true
  | .display => false
  | .shiftb _ _ => false
  | .sethv _ => false
  | .setbrt _ => false
  | .setind _ => false

/-- The commands of the power and brightness family (R110). -/
def Instr.isPower : Instr → Bool
  | .setnum _ _ => false
  | .settext _ _ _ _ => false
  | .clear _ => false
  | .putunit _ _ => false
  | .display => false
  | .shiftb _ _ => false
  | .sethv _ => true
  | .setbrt _ => true
  | .setind _ => true

end Sys2Proof

namespace Sys2Proof.Machine

/-- The level of the last event on a line, none when the trace has no event on it (R17, R27). -/
def lastWrite (line : Line) (trace : List Event) : Option Level :=
  ((trace.filter fun e => e.line == line).getLast?).map Event.level

/-- What holds at every point between commands. -/
structure State.Inv (s : State) : Prop where
  /-- the buffer is in its canonical form -/
  buf_wf : Memory.wf s.buf = true
  /-- `BUF` has no byte at or above `5N` (R14, R44) -/
  buf_below : Memory.below s.bufLength s.buf = true
  /-- `SR` has `40N` bits (R25) -/
  sr_length : s.sr.length = s.chainLength
  /-- `VIS` has `40N` bits (R26) -/
  vis_length : s.vis.length = s.chainLength
  /-- no walk is in progress (R19) -/
  no_walk : s.seq = none
  /-- a line that has been written holds the level last written to it (R17) -/
  lines_hold : ∀ line level, lastWrite line s.trace = some level → s.level line = level
  /-- a clock line that has been written is high (R17, R91) -/
  clk_high : lastWrite .clk s.trace ≠ some false
  /-- a latch line that has been written is high (R17, R93) -/
  latch_high : lastWrite .latch s.trace ≠ some false

/-- Commands run one after another (R39, R143). -/
def runCommands : List Instr → State → Host.Outcome State Fault Refusal
  | [], s => .next s
  | i :: is, s =>
    match exec i s with
    | .next t => runCommands is t
    | .fault r => .fault r
    | .refused r => .refused r

/-- How many rising edges of a line a list of events makes from a state (R98). -/
def risingEdges (line : Line) : List Event → State → Nat
  | [], _ => 0
  | e :: es, s => (if s.isRising line e then 1 else 0) + risingEdges line es (s.emit e)

/-- Data bit `k` of a transmission of the buffer: `BUF[k div 8][k mod 8]` (R95). -/
def serialBit (m : Memory) (k : Nat) : Bool := (Memory.read m (k / 8)).getLsbD (k % 8)

/-- The three events that send one bit (R91). -/
def bitEvents (b : Bool) : List Event := [⟨.data, b⟩, ⟨.clk, false⟩, ⟨.clk, true⟩]

/-- The latch pulse (R93). -/
def latchEvents : List Event := [⟨.latch, false⟩, ⟨.latch, true⟩]

/-- The digit of a character code: its value for `0x30` to `0x39`, zero otherwise (R60, R77). -/
def charDigit (c : Byte) : Nat := if 0x30 ≤ c.toNat ∧ c.toNat ≤ 0x39 then c.toNat - 0x30 else 0

end Sys2Proof.Machine
end

