-- ==== Sys2Proof/Certificates/Slice0/Obligations.lean ====
section
/-! DEFINITION. The statements for the provers. Each docstring names the rule of spec/ it formalises. -/

open Sys2Proof Sys2Proof.Machine

/-! ## Encoding -/

/-- R65 to R67: the word of a well-formed command decodes to that command, for every operand its fields admit. -/
def Obligations.DecodeOfEncodeIsTheCommand : Prop :=
  ∀ i : Instr, i.wellFormed = true → decode (encode i) = .command i

/-- R66, R67, R69: a command that is decoded is well formed, and encoding it gives the word back with its reserved bits
cleared. -/
def Obligations.EncodeOfDecodeClearsReservedBits : Prop :=
  ∀ (w : CmdWord) (i : Instr), decode w = .command i →
    i.wellFormed = true ∧ encode i = w &&& namedBits (opField w)

/-- R69: reserved bits are ignored by the decoder and so by the step; the encoder writes them zero; every value of the
named fields is legal and accepted. -/
def Obligations.ReservedBitsAreIgnored : Prop :=
  (∀ w v : CmdWord, w &&& namedBits (opField w) = v &&& namedBits (opField w) → decode v = decode w) ∧
  (∀ (s : State) (w v : CmdWord), w &&& namedBits (opField w) = v &&& namedBits (opField w) →
    step (s.present v) = step (s.present w)) ∧
  (∀ i : Instr, encode i &&& namedBits i.opcode = encode i) ∧
  (∀ i : Instr, i.wellFormed = true → decode (encode i) = .command i ∧
    ∀ s : State, ∃ t, step (s.present (encode i)) = .next t)

/-- R68: exactly the opcodes 0, 7 and 11 to 15 are reserved, and such a word at the port is taken and does nothing. -/
def Obligations.ReservedOpcodeDoesNothing : Prop :=
  (∀ w : CmdWord, (∃ op, decode w = .reserved op) ↔
    (opField w).toNat = 0 ∨ (opField w).toNat = 7 ∨ 11 ≤ (opField w).toNat) ∧
  (∀ (s : State) (w : CmdWord) (rest : List CmdWord), s.port = w :: rest →
    ((opField w).toNat = 0 ∨ (opField w).toNat = 7 ∨ 11 ≤ (opField w).toNat) →
    step s = .next { s with port := rest })

/-- Words written out from R65 to R67 (spec/95_test_vectors.md 2.3 to 2.8) decode to the commands they stand for. -/
def Obligations.SampleWordsDecode : Prop :=
  decode 0x1FFFFFFFFB#40 = .command (.setnum (-5) 0b1111) ∧
  decode 0x2031322035#40 = .command (.settext 0x31 0x32 0x20 0x35) ∧
  decode 0x30000003FF#40 = .command (.clear 0x03FF) ∧
  decode 0x4000030155#40 = .command (.putunit 3 0x0155) ∧
  decode 0x5FFFFFFFFF#40 = .command .display ∧
  decode 0x6100000001#40 = .command (.shiftb 1 0x01) ∧
  decode 0x80000000FE#40 = .command (.sethv false) ∧
  decode 0x9000000180#40 = .command (.setbrt 128) ∧
  decode 0xA0000000C8#40 = .command (.setind 200) ∧
  decode 0x7300001234#40 = .reserved 7

/-- R72: the two pseudo-forms stand for CLEAR of the default blank and for DISPLAY. -/
def Obligations.PseudoFormsExpand : Prop :=
  ∀ p : Platform, Pseudo.clearDefault.expand p = .clear p.defaultBlank ∧ Pseudo.transmit.expand p = .display

/-! ## The step -/

/-- R9, R39, R149: the step takes the next word from the port and is the decoded command's `exec` on what remains.
The port is the model's own field (notes/assumptions 2). -/
def Obligations.StepRunsTheDecodedCommand : Prop :=
  ∀ (s : State) (w : CmdWord) (rest : List CmdWord) (i : Instr), s.port = w :: rest → decode w = .command i →
    step s = exec i { s with port := rest }

/-- R135: with no word at the port the block is idle and keeps all state. The port is the model's own field
(notes/assumptions 2). -/
def Obligations.IdleKeepsAllState : Prop :=
  ∀ s : State, s.port = [] → step s = .next s

/-- R120: no command word and no command ends in a fault or a refusal, and there is no fault to end in. -/
def Obligations.NoCommandStops : Prop :=
  (∀ s : State, ∃ t, step s = .next t) ∧ (∀ (i : Instr) (s : State), ∃ t, exec i s = .next t) ∧
  (∀ _ : Fault, False)

/-- R39, R143: presenting the words of commands and stepping once for each is running the commands in order. The port
that the words are presented at, and that a step takes one of them, is the model's choice (notes/assumptions 2). -/
def Obligations.SteppingRunsTheCommandsInOrder : Prop :=
  ∀ (is : List Instr) (rest : List CmdWord) (s : State), (∀ i ∈ is, i.wellFormed = true) →
    Host.Core.run Sys2Proof.core is.length { s with port := is.map encode ++ rest } =
      runCommands is { s with port := rest }

/-! ## What the encoder computes -/

/-- R74: `Clamp` is 0 below 0, 9999 above 9999, the number otherwise, always within 0..9999; and SETNUM does with a
number what it does with the clamped one, so that nothing signals the clamp. -/
def Obligations.NumberIsClamped : Prop :=
  (∀ n : Int, n < 0 → clampNumber n = 0) ∧ (∀ n : Int, 9999 < n → clampNumber n = 9999) ∧
  (∀ n : Int, 0 ≤ n → n ≤ 9999 → (clampNumber n : Int) = n) ∧ (∀ n : Int, clampNumber n ≤ 9999) ∧
  (∀ (n : Int) (m : BitVec 4) (s : State), exec (.setnum n m) s = exec (.setnum (clampNumber n) m) s)

/-- R75: each digit is the decimal digit of the clamped number where its mask bit is set, and 10 where it is clear. -/
def Obligations.DigitsFollowTheMask : Prop :=
  ∀ (n : Int) (m : BitVec 4),
    (digits n m).thousands.val = (if m.getLsbD 3 then clampNumber n / 1000 % 10 else 10) ∧
    (digits n m).hundreds.val = (if m.getLsbD 2 then clampNumber n / 100 % 10 else 10) ∧
    (digits n m).tens.val = (if m.getLsbD 1 then clampNumber n / 10 % 10 else 10) ∧
    (digits n m).units.val = (if m.getLsbD 0 then clampNumber n % 10 else 10)

/-- R77: the text value is the sum of `(digit × 1000) div 10^i`, each division exact, so that position `i` weighs
`10^(3-i)`; a character that is no digit adds nothing; the result is within 0..9999. -/
def Obligations.TextValueWeighsDigits : Prop :=
  ∀ c0 c1 c2 c3 : Byte,
    textValue c0 c1 c2 c3 = charDigit c0 * 1000 / 10 ^ 0 + charDigit c1 * 1000 / 10 ^ 1 +
      charDigit c2 * 1000 / 10 ^ 2 + charDigit c3 * 1000 / 10 ^ 3 ∧
    textValue c0 c1 c2 c3 = charDigit c0 * 10 ^ 3 + charDigit c1 * 10 ^ 2 + charDigit c2 * 10 ^ 1 +
      charDigit c3 * 10 ^ 0 ∧
    (∀ c : Byte, (c.toNat < 0x30 ∨ 0x39 < c.toNat) → charDigit c = 0) ∧
    (∀ c : Byte, 0x30 ≤ c.toNat → c.toNat ≤ 0x39 → charDigit c = c.toNat - 0x30) ∧
    textValue c0 c1 c2 c3 ≤ 9999

/-- R53, R54: the five bytes of a packed unit bit by bit, the unit value as the or of the shifted patterns, and the
field that each pattern occupies. -/
def Obligations.PackFollowsTheLayout : Prop :=
  ∀ (tbl : PatternTable) (d : Positions DigitIndex),
    let pk := tbl.get d.thousands
    let ph := tbl.get d.hundreds
    let pt := tbl.get d.tens
    let pu := tbl.get d.units
    let v := pack tbl d
    unitBytes v =
      [ pu.extractLsb' 0 8,
        (pu.extractLsb' 8 2).setWidth 8 ||| (pt.extractLsb' 0 6).setWidth 8 <<< 2,
        (pt.extractLsb' 6 4).setWidth 8 ||| (ph.extractLsb' 0 4).setWidth 8 <<< 4,
        (ph.extractLsb' 4 6).setWidth 8 ||| (pk.extractLsb' 0 2).setWidth 8 <<< 6,
        pk.extractLsb' 2 8 ] ∧
    v = pu.setWidth 40 ||| pt.setWidth 40 <<< 10 ||| ph.setWidth 40 <<< 20 ||| pk.setWidth 40 <<< 30 ∧
    v.extractLsb' 0 10 = pu ∧ v.extractLsb' 10 10 = pt ∧ v.extractLsb' 20 10 = ph ∧ v.extractLsb' 30 10 = pk

/-- R55: unpacking a packed unit gives the four patterns, for every table; under `PATTERN_DISTINCT` each pattern gives
its digit index back; a pattern equal to no entry gives none. -/
def Obligations.UnpackInvertsPack : Prop :=
  ∀ tbl : PatternTable,
    (∀ d : Positions DigitIndex, unpack (pack tbl d) =
      ⟨tbl.get d.thousands, tbl.get d.hundreds, tbl.get d.tens, tbl.get d.units⟩) ∧
    (tbl.Distinct → ∀ d : DigitIndex, digitOf tbl (tbl.get d) = some d) ∧
    (∀ p : Pattern, (∀ d : DigitIndex, tbl.get d ≠ p) → digitOf tbl p = none)

/-! ## The Digit Encoder commands -/

/-- R73, R75, R76: SETNUM completes, writes the packed digits of the clamped and masked number into unit 0, and changes
nothing else. -/
def Obligations.SetnumWritesThePackedDigits : Prop :=
  ∀ (s : State) (number : Int) (mask : BitVec 4), ∃ t, exec (.setnum number mask) s = .next t ∧
    t = { s with buf := t.buf } ∧
    t.unit 0 = (s.pattern.get (digits number mask).units).setWidth 40 |||
      (s.pattern.get (digits number mask).tens).setWidth 40 <<< 10 |||
      (s.pattern.get (digits number mask).hundreds).setWidth 40 <<< 20 |||
      (s.pattern.get (digits number mask).thousands).setWidth 40 <<< 30 ∧
    ∀ a, 5 ≤ a → Memory.read t.buf a = Memory.read s.buf a

/-- R73, R77, R78: SETTEXT completes, shows in each position the digit of its character, 0 for a character that is no
digit and never dark, and changes nothing but unit 0. -/
def Obligations.SettextShowsEachCharactersDigit : Prop :=
  ∀ (s : State) (c0 c1 c2 c3 : Byte), ∃ t, exec (.settext c0 c1 c2 c3) s = .next t ∧
    t = { s with buf := t.buf } ∧
    unpack (t.unit 0) = ⟨s.pattern.get (decimalDigit (charDigit c0)), s.pattern.get (decimalDigit (charDigit c1)),
      s.pattern.get (decimalDigit (charDigit c2)), s.pattern.get (decimalDigit (charDigit c3))⟩ ∧
    ∀ a, 5 ≤ a → Memory.read t.buf a = Memory.read s.buf a

/-- R73, R79: CLEAR completes, leaves the fill's expansion in every unit, and changes no byte beyond the buffer and
nothing else. -/
def Obligations.ClearFillsEveryUnit : Prop :=
  ∀ (s : State) (fill : RawWord), ∃ t, exec (.clear fill) s = .next t ∧
    t = { s with buf := t.buf } ∧
    (∀ u, u < s.boards.count → t.unit u = rawExpand s.platform.rawTable fill) ∧
    ∀ a, 5 * s.boards.count ≤ a → Memory.read t.buf a = Memory.read s.buf a

/-- R73, R80: PUTUNIT completes, leaves the word's expansion in unit `index mod N`, a unit of the buffer, and changes
no byte outside that unit and nothing else. -/
def Obligations.PutunitWritesTheWrappedUnit : Prop :=
  ∀ (s : State) (index : BitVec 8) (word : RawWord), ∃ t, exec (.putunit index word) s = .next t ∧
    t = { s with buf := t.buf } ∧
    wrapIndex s.boards index = index.toNat % s.boards.count ∧ wrapIndex s.boards index < s.boards.count ∧
    t.unit (wrapIndex s.boards index) = rawExpand s.platform.rawTable word ∧
    ∀ a, ¬ (5 * wrapIndex s.boards index ≤ a ∧ a < 5 * wrapIndex s.boards index + 5) →
      Memory.read t.buf a = Memory.read s.buf a

/-- R83: the source's four properties of the encoder. -/
def Obligations.EncoderMeetsTheSourcesProperties : Prop :=
  (∀ (s : State) (n : Nat), n ≤ 9999 → ∃ t, exec (.setnum n 0b1111) s = .next t ∧
    unpack (t.unit 0) = ⟨s.pattern.get (decimalDigit (n / 1000)), s.pattern.get (decimalDigit (n / 100)),
      s.pattern.get (decimalDigit (n / 10)), s.pattern.get (decimalDigit n)⟩) ∧
  (∀ (s : State) (n : Int) (m : BitVec 4),
    (n < 0 → exec (.setnum n m) s = exec (.setnum 0 m) s) ∧
    (9999 < n → exec (.setnum n m) s = exec (.setnum 9999 m) s)) ∧
  (∀ (s : State) (n : Int) (m : BitVec 4), ∃ t, exec (.setnum n m) s = .next t ∧
    (m.getLsbD 3 = false → (unpack (t.unit 0)).thousands = s.pattern.get 10) ∧
    (m.getLsbD 2 = false → (unpack (t.unit 0)).hundreds = s.pattern.get 10) ∧
    (m.getLsbD 1 = false → (unpack (t.unit 0)).tens = s.pattern.get 10) ∧
    (m.getLsbD 0 = false → (unpack (t.unit 0)).units = s.pattern.get 10)) ∧
  (∀ (tbl : PatternTable) (d : Positions DigitIndex),
    unpack (pack tbl d) = ⟨tbl.get d.thousands, tbl.get d.hundreds, tbl.get d.tens, tbl.get d.units⟩ ∧
    (tbl.Distinct →
      digitOf tbl (unpack (pack tbl d)).thousands = some d.thousands ∧
      digitOf tbl (unpack (pack tbl d)).hundreds = some d.hundreds ∧
      digitOf tbl (unpack (pack tbl d)).tens = some d.tens ∧
      digitOf tbl (unpack (pack tbl d)).units = some d.units))

/-- R84: SETNUM of a number and of the clamped number, SETTEXT and SETNUM of its value, CLEAR and the sequence of
PUTUNITs over all units leave the same state; each of the four executed twice, in any state between commands (the
invariant), leaves the state of once. -/
def Obligations.EncoderCommandsAgree : Prop :=
  (∀ (s : State) (n : Int) (m : BitVec 4), exec (.setnum n m) s = exec (.setnum (clampNumber n) m) s) ∧
  (∀ (s : State) (c0 c1 c2 c3 : Byte),
    exec (.settext c0 c1 c2 c3) s = exec (.setnum (textValue c0 c1 c2 c3) 0b1111) s) ∧
  (∀ (s : State) (f : RawWord), exec (.clear f) s =
    runCommands ((List.range s.boards.count).map fun u => .putunit (BitVec.ofNat 8 u) f) s) ∧
  (∀ (s : State) (i : Instr), s.Inv → i.writesBuf = true → ∃ t, exec i s = .next t ∧ exec i t = .next t)

/-- R81: the dark unit is reached by SETNUM with mask 0, and under `RAW_BLANK` by PUTUNIT and CLEAR of the default
blank; under `DARK_ZERO` it is zero. -/
def Obligations.DarkUnitIsReachedThreeWays : Prop :=
  (∀ (s : State) (x : Int), ∃ t, exec (.setnum x 0b0000) s = .next t ∧ t.unit 0 = darkUnit s.pattern) ∧
  (∀ (s : State) (index : BitVec 8), RawBlank s.pattern s.platform →
    ∃ t, exec (.putunit index s.platform.defaultBlank) s = .next t ∧
      t.unit (index.toNat % s.boards.count) = darkUnit s.pattern) ∧
  (∀ s : State, RawBlank s.pattern s.platform → ∃ t, exec (.clear s.platform.defaultBlank) s = .next t ∧
    ∀ u, u < s.boards.count → t.unit u = darkUnit s.pattern) ∧
  (∀ tbl : PatternTable, tbl.DarkZero → darkUnit tbl = 0 ∧ unitBytes (darkUnit tbl) = [0, 0, 0, 0, 0])

/-- R121 to R123: the three silent corrections, who they can happen to, and what is done instead. -/
def Obligations.SilentCorrectionsReplaceTheOperand : Prop :=
  (∀ (s : State) (n : Int) (m : BitVec 4), (n < 0 ∨ 9999 < n) →
    exec (.setnum n m) s = exec (.setnum (clampNumber n) m) s) ∧
  (∀ (s : State) (index : BitVec 8) (w : RawWord), s.boards.count ≤ index.toNat →
    exec (.putunit index w) s = exec (.putunit (BitVec.ofNat 8 (index.toNat % s.boards.count)) w) s) ∧
  (∀ (s : State) (order : BitVec 4) (v : Byte), order ≠ 0 → order ≠ 1 → exec (.shiftb order v) s = .next s) ∧
  (∀ (n : BoardCount) (i : Instr),
    (Correction.numericRange ∈ operandCorrections n i ↔ ∃ x m, i = .setnum x m ∧ (x < 0 ∨ 9999 < x)) ∧
    (Correction.unitIndex ∈ operandCorrections n i ↔ ∃ x w, i = .putunit x w ∧ n.count ≤ x.toNat) ∧
    (Correction.bitOrder ∈ operandCorrections n i ↔ ∃ o v, i = .shiftb o v ∧ o ≠ 0 ∧ o ≠ 1))

/-- R127: a word steps as its command does, and as the encoding of its command, so its reserved bits are ignored before
and independently of the operand correction; a command does what it does with its operand corrected, or nothing where
the correction is to do nothing, and a correction leaves nothing to correct; one operand at most is corrected, and the
list of corrections says when: the other operand of SETNUM (under `PATTERN_DISTINCT`), PUTUNIT and SHIFTB acts as it is
given; a reserved opcode is corrected alone, to nothing. -/
def Obligations.CorrectionsDoNotMeet : Prop :=
  (∀ (s : State) (w : CmdWord) (i : Instr), decode w = .command i →
    step (s.present w) = exec i s ∧ step (s.present w) = step (s.present (encode i)) ∧
    (w = encode i → wordCorrections s.boards w = operandCorrections s.boards i) ∧
    (w ≠ encode i → wordCorrections s.boards w = .reservedBits :: operandCorrections s.boards i)) ∧
  (∀ (s : State) (i : Instr), exec i s = (corrected s.boards i).elim (.next s) fun j => exec j s) ∧
  (∀ (n : BoardCount) (i j : Instr), corrected n i = some j → operandCorrections n j = [] ∧ corrected n j = some j) ∧
  (∀ (n : BoardCount) (i : Instr), (operandCorrections n i).length ≤ 1 ∧
    (operandCorrections n i = [] ↔ corrected n i = some i)) ∧
  (∀ (s : State) (number : Int) (mask mask' : BitVec 4), s.pattern.Distinct →
    (exec (.setnum number mask) s = exec (.setnum number mask') s ↔ mask = mask')) ∧
  (∀ (s : State) (index : BitVec 8) (word word' : RawWord),
    exec (.putunit index word) s = exec (.putunit index word') s ↔
      rawExpand s.platform.rawTable word = rawExpand s.platform.rawTable word') ∧
  (∀ (s : State) (order : BitVec 4) (byte byte' : Byte), order = 0 ∨ order = 1 →
    (exec (.shiftb order byte) s = exec (.shiftb order byte') s ↔ byte = byte')) ∧
  (∀ (s : State) (w : CmdWord) (op : BitVec 4), decode w = .reserved op →
    step (s.present w) = .next s ∧ wordCorrections s.boards w = [.reservedOpcode])

/-! ## Lines and chain -/

/-- R90: one event sets the line register of its name, leaves the two others, and joins the trace, whatever level the
line had; a write of the level the line has already is an event and no edge. -/
def Obligations.EmitSetsTheLineAndJoinsTheTrace : Prop :=
  ∀ (s : State) (line : Line) (level : Level),
    (s.emit ⟨line, level⟩).level line = level ∧
    (∀ other, other ≠ line → (s.emit ⟨line, level⟩).level other = s.level other) ∧
    (s.emit ⟨line, level⟩).trace = s.trace ++ [⟨line, level⟩] ∧
    (s.level line = level → ∀ k, s.isRising k ⟨line, level⟩ = false)

/-- R99: at a rising edge of the clock every bit of the chain moves one place down and the data level enters at the
end; the visible outputs do not change. -/
def Obligations.ClockEdgeShiftsTheChain : Prop :=
  ∀ s : State, s.sr.length = s.chainLength → s.clk = false →
    (s.emit ⟨.clk, true⟩).sr.length = s.chainLength ∧
    (∀ j, j + 1 < s.chainLength → (s.emit ⟨.clk, true⟩).sr[j]? = s.sr[j + 1]?) ∧
    (s.emit ⟨.clk, true⟩).sr[s.chainLength - 1]? = some s.data ∧
    (s.emit ⟨.clk, true⟩).vis = s.vis

/-- R100: at a rising edge of the latch line the visible outputs become the chain's bits; at every other event they
stay. -/
def Obligations.LatchEdgeCommitsTheChain : Prop :=
  (∀ s : State, s.latch = false → (s.emit ⟨.latch, true⟩).vis = s.sr) ∧
  (∀ (s : State) (e : Event), ¬ (e = ⟨.latch, true⟩ ∧ s.latch = false) → (s.emit e).vis = s.vis)

/-- R91: one bit is a data write, then clock low, then clock high; afterwards the data line holds it and the clock is
high. -/
def Obligations.BitOutWritesDataBeforeTheClock : Prop :=
  ∀ (s : State) (pos : SeqPos) (b : Bool),
    (bitOut pos b).map Tick.event = [⟨.data, b⟩, ⟨.clk, false⟩, ⟨.clk, true⟩] ∧
    (State.ticks (bitOut pos b) s).data = b ∧ (State.ticks (bitOut pos b) s).clk = true

/-- R92: eight bits upward for order 0, eight bits downward for order 1, 24 events each; no event and no change for
any other order. -/
def Obligations.ShiftByteFollowsTheOrder : Prop :=
  ∀ (s : State) (i : Nat) (order : BitVec 4) (v : Byte),
    (order = 0 → (shiftByte i order v).map Tick.event = (List.range 8).flatMap fun j => bitEvents (v.getLsbD j)) ∧
    (order = 1 →
      (shiftByte i order v).map Tick.event = (List.range 8).flatMap fun j => bitEvents (v.getLsbD (7 - j))) ∧
    ((order = 0 ∨ order = 1) → (shiftByte i order v).length = 24) ∧
    (order ≠ 0 → order ≠ 1 → shiftByte i order v = [] ∧ s.transmit (shiftByte i order v) = s)

/-! ## The Bus Transmitter commands -/

/-- R93, R95: DISPLAY completes; its events are the `40N` bits of the units in order, each as R91 says, then the latch
pulse; the clock and latch lines end high, the data line at bit 7 of the last byte; beyond the lines, the chain and the
trace nothing changes. -/
def Obligations.DisplaySendsTheUnitsThenLatches : Prop :=
  ∀ s : State, ∃ t, exec .display s = .next t ∧
    t = { s with data := t.data, clk := t.clk, latch := t.latch, sr := t.sr, vis := t.vis, trace := t.trace } ∧
    t.trace = s.trace ++
      (((List.range (40 * s.boards.count)).flatMap fun k => bitEvents ((s.unit (k / 40)).getLsbD (k % 40))) ++
        latchEvents) ∧
    t.clk = true ∧ t.latch = true ∧ t.data = (Memory.read s.buf (5 * s.boards.count - 1)).getLsbD 7

/-- R101: whatever the chain and the visible outputs held before, after DISPLAY both hold the `40N` bits of the units
in order, and field `q` of board `b` shows the pattern packed at field `q` of unit `b`. -/
def Obligations.DisplayShowsTheBuffer : Prop :=
  ∀ s : State, s.sr.length = s.chainLength → ∃ t, exec .display s = .next t ∧
    t.sr = (List.range (40 * s.boards.count)).map (fun k => (s.unit (k / 40)).getLsbD (k % 40)) ∧
    t.vis = t.sr ∧
    ∀ b q, b < s.boards.count → q < 4 →
      t.visPattern b q = (List.range 10).map fun i => (s.unit b).getLsbD (10 * q + i)

/-- R101, R102: power can be cut after any proper prefix of DISPLAY's events, and then the visible outputs and the
buffer are what they were before the command. -/
def Obligations.NoPartialCommit : Prop :=
  ∀ (s : State) (k : Nat),
    (k < 120 * s.boards.count + 2 → ∃ p, s.cutPower .display k = some p ∧ p.vis = s.vis ∧ p.buf = s.buf) ∧
    (120 * s.boards.count + 2 ≤ k → s.cutPower .display k = none)

/-- R94: the counts of one DISPLAY's events and of its rising edges; each clock or latch write of 1 directly follows a
write of 0 to the same line; as many data writes of 1 as the buffer has 1 bits, none for a zero buffer. -/
def Obligations.DisplayEventCounts : Prop :=
  ∀ s : State, ∃ t es, exec .display s = .next t ∧ t.trace = s.trace ++ es ∧
    es.length = 120 * s.boards.count + 2 ∧
    es.countP (fun e => e.line == .data) = 40 * s.boards.count ∧
    es.count ⟨.clk, false⟩ = 40 * s.boards.count ∧ es.count ⟨.clk, true⟩ = 40 * s.boards.count ∧
    es.count ⟨.latch, false⟩ = 1 ∧ es.count ⟨.latch, true⟩ = 1 ∧
    risingEdges .clk es s = 40 * s.boards.count ∧ risingEdges .latch es s = 1 ∧
    (∀ (j : Nat) (line : Line), line ≠ .data → es[j + 1]? = some ⟨line, true⟩ → es[j]? = some ⟨line, false⟩) ∧
    (∀ line : Line, line ≠ .data → es[0]? ≠ some ⟨line, true⟩) ∧
    es.count ⟨.data, true⟩ = (List.range (40 * s.boards.count)).countP (serialBit s.buf) ∧
    ((∀ a, a < 5 * s.boards.count → Memory.read s.buf a = 0) → es.count ⟨.data, true⟩ = 0)

/-- R104: in any state between commands (the invariant), DISPLAY twice leaves the buffer, the lines, the chain and the
visible outputs of DISPLAY once, and the second emits the same `120N + 2` events as the first. -/
def Obligations.DisplayTwiceIsDisplayOnce : Prop :=
  ∀ s : State, s.Inv → ∃ t u es, exec .display s = .next t ∧ exec .display t = .next u ∧
    u = { t with trace := u.trace } ∧ t.buf = s.buf ∧
    t.trace = s.trace ++ es ∧ u.trace = t.trace ++ es ∧ es.length = 120 * s.boards.count + 2

/-- R92, R96: SHIFTB with a supported order completes, sends the eight bits of its byte in that order, shifts them into
the chain and changes nothing that is visible; with another order it changes nothing at all. -/
def Obligations.ShiftbSendsOneByte : Prop :=
  (∀ (s : State) (v : Byte), s.sr.length = s.chainLength → ∃ t, exec (.shiftb 0 v) s = .next t ∧
    t = { s with data := v.getLsbD 7, clk := true, sr := t.sr, trace := t.trace } ∧
    t.sr = s.sr.drop 8 ++ (List.range 8).map (fun j => v.getLsbD j) ∧
    t.trace = s.trace ++ (List.range 8).flatMap fun j => bitEvents (v.getLsbD j)) ∧
  (∀ (s : State) (v : Byte), s.sr.length = s.chainLength → ∃ t, exec (.shiftb 1 v) s = .next t ∧
    t = { s with data := v.getLsbD 0, clk := true, sr := t.sr, trace := t.trace } ∧
    t.sr = s.sr.drop 8 ++ (List.range 8).map (fun j => v.getLsbD (7 - j)) ∧
    t.trace = s.trace ++ (List.range 8).flatMap fun j => bitEvents (v.getLsbD (7 - j))) ∧
  (∀ (s : State) (order : BitVec 4) (v : Byte), order ≠ 0 → order ≠ 1 → exec (.shiftb order v) s = .next s)

/-- R96, R101, R146: a SHIFTB before a DISPLAY cannot be seen: the DISPLAY leaves the same chain and the same visible
outputs as without it. -/
def Obligations.ShiftbIsUnseenAfterDisplay : Prop :=
  ∀ (s : State) (order : BitVec 4) (v : Byte), s.Inv → ∃ t u,
    runCommands [.shiftb order v, .display] s = .next t ∧ exec .display s = .next u ∧
    t.sr = u.sr ∧ t.vis = u.vis ∧ t.buf = u.buf ∧ t.data = u.data ∧ t.clk = u.clk ∧ t.latch = u.latch

/-- R103: the transmitter's commands do the same whatever the power and brightness registers hold. -/
def Obligations.TransmissionIgnoresPower : Prop :=
  ∀ (s : State) (i : Instr) (hv : Bool) (brt ind : BitVec 8), (i = .display ∨ ∃ order v, i = .shiftb order v) →
    ∃ t, exec i s = .next t ∧
      exec i { s with hv := hv, brt := brt, ind := ind } = .next { t with hv := hv, brt := brt, ind := ind }

/-! ## Power and brightness -/

/-- R110, R111: SETHV completes, gives `HV` its operand (it does not invert it) and changes nothing else. -/
def Obligations.SethvSetsTheEnable : Prop :=
  ∀ (s : State) (on : Bool), exec (.sethv on) s = .next { s with hv := on } ∧
    runCommands [.sethv on, .sethv on] s = .next { s with hv := on }

/-- R110, R112: SETBRT completes, gives `BRT` its level and changes nothing else; the effective brightness is the
level in 255ths with pulse-width support, else nothing for level 0 and all for any other. -/
def Obligations.SetbrtSetsTheBrightness : Prop :=
  ∀ (s : State) (level : BitVec 8), ∃ t, exec (.setbrt level) s = .next t ∧ t = { s with brt := level } ∧
    (s.platform.oePwm = true → t.effectiveBrightness = level.toNat) ∧
    (s.platform.oePwm = false → level = 0 → t.effectiveBrightness = 0) ∧
    (s.platform.oePwm = false → level ≠ 0 → t.effectiveBrightness = 255)

/-- R110, R114: SETIND completes, gives `IND` its level and changes nothing else; the indicator's intensity is the
level in 255ths with pulse-width support, else nothing for level 0 and all for any other. -/
def Obligations.SetindSetsTheIndicator : Prop :=
  ∀ (s : State) (level : BitVec 8), ∃ t, exec (.setind level) s = .next t ∧ t = { s with ind := level } ∧
    (s.platform.indPwm = true → t.indicatorIntensity = level.toNat) ∧
    (s.platform.indPwm = false → level = 0 → t.indicatorIntensity = 0) ∧
    (s.platform.indPwm = false → level ≠ 0 → t.indicatorIntensity = 255)

/-- R113: a glow wire is lit exactly when its visible bit is 1, the high voltage is on and the effective brightness is
above zero; and with either kind of pin that is so exactly for a level that is not 0. -/
def Obligations.LitNeedsPatternVoltageAndBrightness : Prop :=
  ∀ (s : State) (b q i : Nat),
    (s.lit b q i = true ↔
      s.vis[40 * b + 10 * q + i]? = some true ∧ s.hv = true ∧ 0 < s.effectiveBrightness) ∧
    (0 < s.effectiveBrightness ↔ s.brt ≠ 0)

/-- R115: a power command before or after an encoder or transmitter command leaves the same buffer, lines, chain and
visible outputs. -/
def Obligations.PowerCommandsCommute : Prop :=
  ∀ (s : State) (p c : Instr), p.isPower = true → c.isPower = false → ∃ t u,
    runCommands [p, c] s = .next t ∧ runCommands [c, p] s = .next u ∧
    t.buf = u.buf ∧ t.data = u.data ∧ t.clk = u.clk ∧ t.latch = u.latch ∧ t.sr = u.sr ∧ t.vis = u.vis

/-! ## Rules over all commands -/

/-- R14, R35, R73: the four encoder commands change the buffer and nothing else, and no other command changes it. -/
def Obligations.OnlyEncoderCommandsWriteTheBuffer : Prop :=
  ∀ (i : Instr) (s t : State), exec i s = .next t →
    (i.writesBuf = true → t = { s with buf := t.buf }) ∧ (i.writesBuf = false → t.buf = s.buf)

/-- R17, R100: the latch line and the visible outputs change by DISPLAY only; the data and clock lines, the chain and
the trace by DISPLAY and SHIFTB only. -/
def Obligations.OnlyTheTransmitterDrivesTheBus : Prop :=
  ∀ (i : Instr) (s t : State), exec i s = .next t →
    (i ≠ .display → t.latch = s.latch ∧ t.vis = s.vis) ∧
    (i ≠ .display → (∀ order v, i ≠ .shiftb order v) →
      t.data = s.data ∧ t.clk = s.clk ∧ t.sr = s.sr ∧ t.trace = s.trace)

/-- R18, R23: `HV` changes by SETHV only, `BRT` by SETBRT only, `IND` by SETIND only. -/
def Obligations.EachPowerRegisterHasOneWriter : Prop :=
  ∀ (i : Instr) (s t : State), exec i s = .next t →
    ((∀ on, i ≠ .sethv on) → t.hv = s.hv) ∧ ((∀ level, i ≠ .setbrt level) → t.brt = s.brt) ∧
    ((∀ level, i ≠ .setind level) → t.ind = s.ind)

/-- R8, R15, R16: no step changes the board count, the pins, the pattern table or the platform. That each step takes one
word from the port is the model's choice (notes/assumptions 2): the port is the model's own field. -/
def Obligations.ConfigurationNeverChanges : Prop :=
  ∀ s t : State, step s = .next t →
    t.boards = s.boards ∧ t.pins = s.pins ∧ t.pattern = s.pattern ∧ t.platform = s.platform ∧
    t.port = s.port.tail

/-- R9, R27: whatever a command does to the lines, the chain and the visible outputs is the doing of the events it adds
to the trace, in their order. -/
def Obligations.TheTraceAccountsForTheBus : Prop :=
  ∀ (i : Instr) (s t : State), exec i s = .next t → ∃ es, t.trace = s.trace ++ es ∧
    t.data = (State.emitAll es s).data ∧ t.clk = (State.emitAll es s).clk ∧ t.latch = (State.emitAll es s).latch ∧
    t.sr = (State.emitAll es s).sr ∧ t.vis = (State.emitAll es s).vis

/-- R3, R144: any number of encoder commands leaves what is visible, the lines and the trace as they were; a DISPLAY
after them shows the buffer that they left, and so only its final content. -/
def Obligations.EncodingDoesNotDisplay : Prop :=
  ∀ (is : List Instr) (s : State), s.Inv → (∀ i ∈ is, i.writesBuf = true) → ∃ t u,
    runCommands is s = .next t ∧ t = { s with buf := t.buf } ∧ exec .display t = .next u ∧
    u.vis = (List.range (40 * s.boards.count)).map fun k => (t.unit (k / 40)).getLsbD (k % 40)

/-- R3, R76, R101: after SETNUM and DISPLAY, board 0 shows at each position the pattern of its digit, dark where the
mask hides it. -/
def Obligations.NumberIsShownAfterDisplay : Prop :=
  ∀ (s : State) (number : Int) (mask : BitVec 4), s.Inv → ∃ t,
    runCommands [.setnum number mask, .display] s = .next t ∧
    t.visPattern 0 3 = (List.range 10).map (s.pattern.get (digits number mask).thousands).getLsbD ∧
    t.visPattern 0 2 = (List.range 10).map (s.pattern.get (digits number mask).hundreds).getLsbD ∧
    t.visPattern 0 1 = (List.range 10).map (s.pattern.get (digits number mask).tens).getLsbD ∧
    t.visPattern 0 0 = (List.range 10).map (s.pattern.get (digits number mask).units).getLsbD

/-! ## Reset and the invariant -/

/-- R28, R136, R137: construction with a legal count gives a zero buffer, an empty trace, the arguments as given, and
for each thing that reset leaves unspecified the value of the draw, whatever the draw is. The model's choices: that the
port, the model's own field, is empty (notes/assumptions 2), that no walk is in progress (notes/assumptions 20), and
that every six pins are accepted, coinciding ones too (notes/assumptions 29). -/
def Obligations.ConstructionGivesTheResetState : Prop :=
  ∀ (n : Nat) (pins : Pins) (tbl : PatternTable) (p : Platform) (d : Draw), 1 ≤ n → n ≤ 255 →
    ∃ t, State.construct n pins tbl p d = .next t ∧
      t.boards.count = n ∧ t.pins = pins ∧ t.pattern = tbl ∧ t.platform = p ∧
      (∀ a, Memory.read t.buf a = 0) ∧ t.trace = [] ∧ t.seq = none ∧ t.port = [] ∧
      t.data = d.data ∧ t.clk = d.clk ∧ t.latch = d.latch ∧ t.hv = d.hv ∧ t.brt = d.brt ∧ t.ind = d.ind ∧
      t.sr.length = 40 * n ∧ t.vis.length = 40 * n ∧
      ∀ k, k < 40 * n → t.sr[k]? = some (d.sr.testBit k) ∧ t.vis[k]? = some (d.vis.testBit k)

/-- R136 (the upper bound is spec/92_eei_decisions.md D11): construction refuses a board count of 0 or above 255. -/
def Obligations.ConstructionRefusesABadCount : Prop :=
  ∀ (n : Nat) (pins : Pins) (tbl : PatternTable) (p : Platform) (d : Draw), (n = 0 ∨ 255 < n) →
    State.construct n pins tbl p d = .refused (.boardCount n)

/-- The model's choice (notes/assumptions 3, 4, 5): the one reset state is the construction with the default board
count and a draw of zeros. -/
def Obligations.ResetIsTheDefaultConstruction : Prop :=
  State.construct 1 Config.pins Config.pattern Config.platform ⟨false, false, false, false, 0, 0, 0, 0⟩ =
    .next State.reset

/-- R28, R44: every construction meets the invariant, and so does the reset state. -/
def Obligations.ConstructionMeetsTheInvariant : Prop :=
  (∀ (n : Nat) (pins : Pins) (tbl : PatternTable) (p : Platform) (d : Draw) (t : State),
    State.construct n pins tbl p d = .next t → t.Inv) ∧ State.reset.Inv

/-- R17, R19, R25, R26, R44: from every state that meets the invariant, a step gives one that meets it. -/
def Obligations.StepKeepsTheInvariant : Prop :=
  ∀ s t : State, s.Inv → step s = .next t → t.Inv

/-- R138: every command is legal as the first; a first DISPLAY sends `40N` zero bits and latches them, whatever reset
left unspecified; under `DARK_ZERO` every position of every board then shows the dark pattern. -/
def Obligations.FirstDisplayAfterResetIsBlank : Prop :=
  ∀ (n : Nat) (pins : Pins) (tbl : PatternTable) (p : Platform) (d : Draw) (s : State),
    State.construct n pins tbl p d = .next s →
    (∀ i : Instr, ∃ t, exec i s = .next t) ∧
    ∃ t, exec .display s = .next t ∧ t.vis = List.replicate (40 * n) false ∧
      t.trace = (List.replicate (40 * n) (bitEvents false)).flatten ++ latchEvents ∧
      (tbl.DarkZero → ∀ b q, b < n → q < 4 → t.visPattern b q = (List.range 10).map (tbl.get 10).getLsbD)
end

