-- ==== Sys2Proof/Laws/PerInstr.lean ====
section
/-! SUPPORT. One statement about every command's encoding, a lemma per constructor. -/

namespace Sys2Proof.Laws.Fields

/-- The encoder puts the opcode and field `a` where the decoder reads them, and the payload below them (R65). -/
def Statement (i : Instr) : Prop :=
  opField (encode i) = i.opcode ∧ aField (encode i) = i.operandA ∧ pField (encode i) = i.payload

/-- The bits of a command word put together from its fields. -/
theorem getLsbD_fields (op a : BitVec 4) (p : BitVec 32) (j : Nat) :
    BitVec.getLsbD (op ++ a ++ p : CmdWord) j =
      if j < 32 then p.getLsbD j else if j < 36 then a.getLsbD (j - 32) else op.getLsbD (j - 36) := by
  have h1 := BitVec.getLsbD_append (x := op ++ a) (y := p) (i := j)
  have h2 := BitVec.getLsbD_append (x := op) (y := a) (i := j - 32)
  refine h1.trans ?_
  rw [h2]
  split_ifs
  all_goals first | rfl | omega

/-- The three fields of a concatenation are its parts. -/
theorem fields_append (op a : BitVec 4) (p : BitVec 32) :
    opField (op ++ a ++ p) = op ∧ aField (op ++ a ++ p) = a ∧ pField (op ++ a ++ p) = p := by
  refine ⟨?_, ?_, ?_⟩
  · apply BitVec.eq_of_getLsbD_eq
    intro i hi
    rw [opField, BitVec.getLsbD_extractLsb', getLsbD_fields, if_neg (by omega), if_neg (by omega),
      show 36 + i - 36 = i by omega]
    simp [hi]
  · apply BitVec.eq_of_getLsbD_eq
    intro i hi
    rw [aField, BitVec.getLsbD_extractLsb', getLsbD_fields, if_neg (by omega), if_pos (by omega),
      show 32 + i - 32 = i by omega]
    simp [hi]
  · apply BitVec.eq_of_getLsbD_eq
    intro i hi
    rw [pField, BitVec.getLsbD_extractLsb', getLsbD_fields, if_pos (by omega), Nat.zero_add]
    simp [hi]

theorem setnum (number : Int) (mask : BitVec 4) : Statement (.setnum number mask) := fields_append _ _ _
theorem settext (c0 c1 c2 c3 : Byte) : Statement (.settext c0 c1 c2 c3) := fields_append _ _ _
theorem clear (fill : RawWord) : Statement (.clear fill) := fields_append _ _ _
theorem putunit (index : BitVec 8) (word : RawWord) : Statement (.putunit index word) := fields_append _ _ _
theorem display : Statement .display := fields_append _ _ _
theorem shiftb (order : BitVec 4) (byte : Byte) : Statement (.shiftb order byte) := fields_append _ _ _
theorem sethv (on : Bool) : Statement (.sethv on) := fields_append _ _ _
theorem setbrt (level : BitVec 8) : Statement (.setbrt level) := fields_append _ _ _
theorem setind (level : BitVec 8) : Statement (.setind level) := fields_append _ _ _

end Sys2Proof.Laws.Fields
end

