-- ==== Sys2Proof/Laws/Decode.lean ====
section
/-! SUPPORT. The operands of a payload read back from its parts, and the decoder's answer for each opcode. -/

namespace Sys2Proof.Laws

/-! ## Parts of a concatenation -/

theorem extract_four (a b c d : BitVec 8) :
    BitVec.extractLsb' 24 8 (a ++ b ++ c ++ d) = a ∧ BitVec.extractLsb' 16 8 (a ++ b ++ c ++ d) = b ∧
      BitVec.extractLsb' 8 8 (a ++ b ++ c ++ d) = c ∧ BitVec.extractLsb' 0 8 (a ++ b ++ c ++ d) = d := by
  refine ⟨?_, ?_, ?_, ?_⟩ <;>
  · apply BitVec.eq_of_getLsbD_eq
    intro j hj
    simp only [BitVec.getLsbD_extractLsb', BitVec.getLsbD_append, hj, decide_true, Bool.true_and]
    split_ifs <;> first | omega | (congr 1; omega)

theorem extract_middle {l m n : Nat} (x : BitVec l) (a : BitVec m) (b : BitVec n) :
    BitVec.extractLsb' n m (x ++ a ++ b) = a := by
  apply BitVec.eq_of_getLsbD_eq
  intro j hj
  simp only [BitVec.getLsbD_extractLsb', BitVec.getLsbD_append, hj, decide_true, Bool.true_and]
  split_ifs <;> first | omega | (congr 1; omega)

theorem extract_low {m n : Nat} (x : BitVec m) (b : BitVec n) : BitVec.extractLsb' 0 n (x ++ b) = b := by
  apply BitVec.eq_of_getLsbD_eq
  intro j hj
  simp only [BitVec.getLsbD_extractLsb', BitVec.getLsbD_append, hj, decide_true, Bool.true_and]
  split_ifs <;> first | omega | (congr 1; omega)

/-! ## Payloads -/

theorem payload_setnum (n : Int) (m : BitVec 4) (h : numberInRange n = true) :
    (Instr.setnum n m).payload.toInt = n := by
  simp only [numberInRange, Bool.and_eq_true, decide_eq_true_eq] at h
  rw [Instr.payload, BitVec.toInt_ofInt, Int.bmod_def]
  split_ifs <;> omega

theorem payload_settext (c0 c1 c2 c3 : Byte) :
    (Instr.settext c0 c1 c2 c3).payload.extractLsb' 24 8 = c0 ∧
      (Instr.settext c0 c1 c2 c3).payload.extractLsb' 16 8 = c1 ∧
      (Instr.settext c0 c1 c2 c3).payload.extractLsb' 8 8 = c2 ∧
      (Instr.settext c0 c1 c2 c3).payload.extractLsb' 0 8 = c3 :=
  extract_four c0 c1 c2 c3

theorem payload_clear (f : RawWord) : (Instr.clear f).payload.extractLsb' 0 16 = f := extract_low (0#16) f

theorem payload_putunit (i : BitVec 8) (w : RawWord) :
    (Instr.putunit i w).payload.extractLsb' 16 8 = i ∧ (Instr.putunit i w).payload.extractLsb' 0 16 = w :=
  ⟨extract_middle (0#8) i w, extract_low ((0#8) ++ i) w⟩

theorem payload_shiftb (o : BitVec 4) (v : Byte) : (Instr.shiftb o v).payload.extractLsb' 0 8 = v :=
  extract_low (0#24) v

theorem payload_sethv (on : Bool) : (Instr.sethv on).payload.getLsbD 0 = on := by
  cases on <;> rfl

theorem payload_setbrt (v : BitVec 8) : (Instr.setbrt v).payload.extractLsb' 0 8 = v := extract_low (0#24) v

theorem payload_setind (v : BitVec 8) : (Instr.setind v).payload.extractLsb' 0 8 = v := extract_low (0#24) v

/-- Zeros in front of a value change none of its bits. -/
theorem getLsbD_zero_append {m n : Nat} (b : BitVec n) (j : Nat) : ((0#m) ++ b).getLsbD j = b.getLsbD j := by
  rw [BitVec.getLsbD_append]
  split_ifs with h
  · rfl
  · rw [BitVec.getLsbD_of_ge b j (by omega)]
    simp

theorem getLsbD_payload_settext (c0 c1 c2 c3 : Byte) (j : Nat) : (Instr.settext c0 c1 c2 c3).payload.getLsbD j =
    if j < 8 then c3.getLsbD j else if j < 16 then c2.getLsbD (j - 8) else if j < 24 then c1.getLsbD (j - 16)
    else c0.getLsbD (j - 24) := by
  have h : (c0 ++ c1 ++ c2 ++ c3).getLsbD j = if j < 8 then c3.getLsbD j else if j < 16 then c2.getLsbD (j - 8)
      else if j < 24 then c1.getLsbD (j - 16) else c0.getLsbD (j - 24) := by
    simp only [BitVec.getLsbD_append]
    split_ifs <;> first | rfl | omega
  exact h

theorem getLsbD_payload_clear (f : RawWord) (j : Nat) : (Instr.clear f).payload.getLsbD j = f.getLsbD j :=
  getLsbD_zero_append f j

theorem getLsbD_payload_putunit (i : BitVec 8) (w : RawWord) (j : Nat) :
    (Instr.putunit i w).payload.getLsbD j = if j < 16 then w.getLsbD j else i.getLsbD (j - 16) := by
  have h : ((0#8) ++ i ++ w).getLsbD j = if j < 16 then w.getLsbD j else i.getLsbD (j - 16) := by
    rw [BitVec.getLsbD_append, getLsbD_zero_append]
  exact h

theorem getLsbD_payload_shiftb (o : BitVec 4) (v : Byte) (j : Nat) :
    (Instr.shiftb o v).payload.getLsbD j = v.getLsbD j :=
  getLsbD_zero_append v j

theorem getLsbD_payload_sethv (on : Bool) (j : Nat) :
    (Instr.sethv on).payload.getLsbD j = (BitVec.ofBool on).getLsbD j :=
  getLsbD_zero_append (BitVec.ofBool on) j

theorem getLsbD_payload_setbrt (v : BitVec 8) (j : Nat) : (Instr.setbrt v).payload.getLsbD j = v.getLsbD j :=
  getLsbD_zero_append v j

theorem getLsbD_payload_setind (v : BitVec 8) (j : Nat) : (Instr.setind v).payload.getLsbD j = v.getLsbD j :=
  getLsbD_zero_append v j

/-! ## The decoder by opcode -/

section byOpcode
variable {w : CmdWord}

theorem decode_op1 (h : opField w = 0x1#4) : decode w = .command (.setnum (pField w).toInt (aField w)) := by
  simp [decode, h]
theorem decode_op2 (h : opField w = 0x2#4) : decode w = .command (.settext ((pField w).extractLsb' 24 8)
    ((pField w).extractLsb' 16 8) ((pField w).extractLsb' 8 8) ((pField w).extractLsb' 0 8)) := by
  simp [decode, h]
theorem decode_op3 (h : opField w = 0x3#4) : decode w = .command (.clear ((pField w).extractLsb' 0 16)) := by
  simp [decode, h]
theorem decode_op4 (h : opField w = 0x4#4) :
    decode w = .command (.putunit ((pField w).extractLsb' 16 8) ((pField w).extractLsb' 0 16)) := by
  simp [decode, h]
theorem decode_op5 (h : opField w = 0x5#4) : decode w = .command .display := by
  simp [decode, h]
theorem decode_op6 (h : opField w = 0x6#4) :
    decode w = .command (.shiftb (aField w) ((pField w).extractLsb' 0 8)) := by
  simp [decode, h]
theorem decode_op8 (h : opField w = 0x8#4) : decode w = .command (.sethv ((pField w).getLsbD 0)) := by
  simp [decode, h]
theorem decode_op9 (h : opField w = 0x9#4) : decode w = .command (.setbrt ((pField w).extractLsb' 0 8)) := by
  simp [decode, h]
theorem decode_opA (h : opField w = 0xA#4) : decode w = .command (.setind ((pField w).extractLsb' 0 8)) := by
  simp [decode, h]

theorem decode_opReserved (h : (opField w).toNat = 0 ∨ (opField w).toNat = 7 ∨ 11 ≤ (opField w).toNat) :
    decode w = .reserved (opField w) := by
  unfold decode
  generalize opField w = o at *
  have : o = 0#4 ∨ o = 7#4 ∨ o = 11#4 ∨ o = 12#4 ∨ o = 13#4 ∨ o = 14#4 ∨ o = 15#4 := by revert o; decide
  rcases this with h | h | h | h | h | h | h <;> simp [h]

/-- Every opcode is one of the nine or reserved (R67, R68). -/
theorem opField_cases (w : CmdWord) : opField w = 0x1#4 ∨ opField w = 0x2#4 ∨ opField w = 0x3#4 ∨ opField w = 0x4#4 ∨
    opField w = 0x5#4 ∨ opField w = 0x6#4 ∨ opField w = 0x8#4 ∨ opField w = 0x9#4 ∨ opField w = 0xA#4 ∨
    ((opField w).toNat = 0 ∨ (opField w).toNat = 7 ∨ 11 ≤ (opField w).toNat) := by
  generalize opField w = o
  revert o
  decide

end byOpcode

end Sys2Proof.Laws
end

