-- ==== Sys2Proof/Laws/Memory.lean ====
section
/-! SUPPORT. What the operations over the Display Buffer do: reading after a write, the canonical form kept, and equal
memories being equal data. -/

namespace Sys2Proof.Laws

open Sys2Proof.Machine

/-! ## Reading after a write -/

theorem read_erase (m : Memory) (a x : Nat) :
    Memory.read (Memory.erase m a) x = if x = a then unlistedByte else Memory.read m x := by
  induction m with
  | nil => simp [Memory.erase, Memory.read]
  | cons p rest ih =>
    obtain ⟨c, v⟩ := p
    simp only [Memory.erase] at ih
    by_cases hc : c = a
    · subst hc
      simp only [Memory.erase, List.filter_cons, bne_self_eq_false, Bool.false_eq_true, if_false, ih, Memory.read]
      split <;> simp_all
    · have hb : (c != a) = true := by simpa using hc
      simp only [Memory.erase, List.filter_cons, hb, if_true, Memory.read, ih]
      split <;> simp_all

theorem read_insert {m : Memory} {a : Nat} (h : ∀ v, (a, v) ∉ m) (b : Byte) (x : Nat) :
    Memory.read (Memory.insert m a b) x = if x = a then b else Memory.read m x := by
  induction m with
  | nil => simp [Memory.insert, Memory.read]
  | cons p rest ih =>
    obtain ⟨c, v⟩ := p
    have hca : c ≠ a := fun e => h v (by simp [e])
    have hr := ih fun w hw => h w (List.mem_cons_of_mem _ hw)
    simp only [Memory.insert]
    split
    · simp [Memory.read]
    · simp only [Memory.read, hr]
      by_cases hx : x = c
      · subst hx; simp [hca]
      · simp [hx]

theorem not_mem_erase (m : Memory) (a : Nat) (v : Byte) : (a, v) ∉ Memory.erase m a := by
  simp [Memory.erase]

/-- Reading after a write: the written byte there, the old byte elsewhere. -/
theorem read_write (m : Memory) (a : Nat) (b : Byte) (x : Nat) :
    Memory.read (Memory.write m a b) x = if x = a then b else Memory.read m x := by
  unfold Memory.write
  split
  · next h => rw [read_erase, h]
  · rw [read_insert (not_mem_erase m a), read_erase]; split <;> rfl

theorem read_write_same (m : Memory) (a : Nat) (b : Byte) : Memory.read (Memory.write m a b) a = b := by
  simp [read_write]

theorem read_write_ne (m : Memory) {a x : Nat} (b : Byte) (h : x ≠ a) :
    Memory.read (Memory.write m a b) x = Memory.read m x := by
  simp [read_write, h]

/-- Reading after a write of consecutive bytes. -/
theorem read_writeBytes (bs : List Byte) (m : Memory) (a x : Nat) :
    Memory.read (Memory.writeBytes m a bs) x =
      if a ≤ x ∧ x < a + bs.length then bs.getD (x - a) 0 else Memory.read m x := by
  induction bs generalizing m a with
  | nil => simp only [Memory.writeBytes, List.length_nil]; rw [if_neg (by omega)]
  | cons b bs ih =>
    simp only [Memory.writeBytes, ih, List.length_cons, read_write]
    rcases Nat.lt_trichotomy x a with h | h | h
    · rw [if_neg (by omega), if_neg (by omega), if_neg (by omega)]
    · subst h; simp
    · obtain ⟨k, hk⟩ : ∃ k, x = a + 1 + k := ⟨x - a - 1, by omega⟩
      subst hk
      have e1 : a + 1 + k - (a + 1) = k := by omega
      have e2 : a + 1 + k - a = k + 1 := by omega
      rw [e1, e2, List.getD_cons_succ]
      by_cases hl : k < bs.length
      · rw [if_pos (by omega), if_pos (by omega)]
      · rw [if_neg (by omega), if_neg (by omega), if_neg (by omega)]

@[simp] theorem length_unitBytes (v : UnitValue) : (unitBytes v).length = 5 := by simp [unitBytes]

theorem getD_unitBytes (v : UnitValue) {i : Nat} (h : i < 5) :
    (unitBytes v).getD i 0 = v.extractLsb' (8 * i) 8 := by
  simp [unitBytes, List.getD_eq_getElem?_getD, List.getElem?_map, List.getElem?_range h]

/-- Reading a byte after a unit is written: the unit's byte inside its slice, the old byte outside (R31, R35). -/
theorem read_writeUnit (m : Memory) (u : Nat) (v : UnitValue) (x : Nat) :
    Memory.read (Memory.writeUnit m u v) x =
      if 5 * u ≤ x ∧ x < 5 * u + 5 then v.extractLsb' (8 * (x - 5 * u)) 8 else Memory.read m x := by
  rw [Memory.writeUnit, read_writeBytes, length_unitBytes]
  split
  · next h => exact getD_unitBytes v (by omega)
  · rfl

/-- The five bytes of a unit value joined again. -/
theorem join_unitBytes (v : UnitValue) :
    v.extractLsb' 32 8 ++ v.extractLsb' 24 8 ++ v.extractLsb' 16 8 ++ v.extractLsb' 8 8 ++ v.extractLsb' 0 8 = v := by
  apply BitVec.eq_of_getLsbD_eq
  intro i hi
  simp only [BitVec.getLsbD_append, BitVec.getLsbD_extractLsb']
  by_cases h1 : i < 8
  · simp [h1]
  by_cases h2 : i < 16
  · have : i - 8 < 8 := by omega
    simp [h1, this, show 8 + (i - 8) = i by omega]
  by_cases h3 : i < 24
  · have : ¬ i - 8 < 8 := by omega
    have h' : i - 8 - 8 < 8 := by omega
    simp [h1, this, h', show 16 + (i - 8 - 8) = i by omega]
  by_cases h4 : i < 32
  · have e1 : ¬ i - 8 < 8 := by omega
    have e2 : ¬ i - 8 - 8 < 8 := by omega
    have e3 : i - 8 - 8 - 8 < 8 := by omega
    simp [h1, e1, e2, e3, show 24 + (i - 8 - 8 - 8) = i by omega]
  · have e1 : ¬ i - 8 < 8 := by omega
    have e2 : ¬ i - 8 - 8 < 8 := by omega
    have e3 : ¬ i - 8 - 8 - 8 < 8 := by omega
    have e4 : i - 8 - 8 - 8 - 8 < 8 := by omega
    simp [h1, e1, e2, e3, e4, show 32 + (i - 8 - 8 - 8 - 8) = i by omega]

/-- A unit read after it is written. -/
theorem readUnit_writeUnit_same (m : Memory) (u : Nat) (v : UnitValue) :
    Memory.readUnit (Memory.writeUnit m u v) u = v := by
  have h : ∀ k, k < 5 → Memory.read (Memory.writeUnit m u v) (5 * u + k) = v.extractLsb' (8 * k) 8 := by
    intro k hk
    rw [read_writeUnit, if_pos (by omega), show 5 * u + k - 5 * u = k by omega]
  have h0 : Memory.read (Memory.writeUnit m u v) (5 * u) = v.extractLsb' 0 8 := h 0 (by omega)
  rw [Memory.readUnit, h 4 (by omega), h 3 (by omega), h 2 (by omega), h 1 (by omega), h0]
  exact join_unitBytes v

/-- Another unit read after a unit is written. -/
theorem readUnit_writeUnit_ne (m : Memory) {u w : Nat} (v : UnitValue) (h : w ≠ u) :
    Memory.readUnit (Memory.writeUnit m u v) w = Memory.readUnit m w := by
  have hk : ∀ k, k < 5 → Memory.read (Memory.writeUnit m u v) (5 * w + k) = Memory.read m (5 * w + k) := by
    intro k hk
    rw [read_writeUnit, if_neg (by omega)]
  have h0 := hk 0 (by omega)
  simp only [Nat.add_zero] at h0
  rw [Memory.readUnit, hk 4 (by omega), hk 3 (by omega), hk 2 (by omega), hk 1 (by omega), h0]
  rfl

/-- Bit `k mod 40` of unit `k div 40` is bit `k mod 8` of byte `k div 8` (R95). -/
theorem getLsbD_readUnit (m : Memory) (u : Nat) {j : Nat} (h : j < 40) :
    (Memory.readUnit m u).getLsbD j = (Memory.read m (5 * u + j / 8)).getLsbD (j % 8) := by
  simp only [Memory.readUnit, BitVec.getLsbD_append]
  by_cases h1 : j < 8
  · simp [h1, show j / 8 = 0 by omega, show j % 8 = j by omega]
  by_cases h2 : j < 16
  · simp [h1, show j - 8 < 8 by omega, show j / 8 = 1 by omega, show j % 8 = j - 8 by omega]
  by_cases h3 : j < 24
  · simp [h1, show ¬ j - 8 < 8 by omega, show j - 8 - 8 < 8 by omega, show j / 8 = 2 by omega,
      show j % 8 = j - 8 - 8 by omega]
  by_cases h4 : j < 32
  · simp [h1, show ¬ j - 8 < 8 by omega, show ¬ j - 8 - 8 < 8 by omega, show j - 8 - 8 - 8 < 8 by omega,
      show j / 8 = 3 by omega, show j % 8 = j - 8 - 8 - 8 by omega]
  · simp [h1, show ¬ j - 8 < 8 by omega, show ¬ j - 8 - 8 < 8 by omega, show ¬ j - 8 - 8 - 8 < 8 by omega,
      show j / 8 = 4 by omega, show j % 8 = j - 8 - 8 - 8 - 8 by omega]

/-! ## The canonical form -/

theorem wfFrom_mono {lo hi : Nat} {m : Memory} (hm : Memory.wfFrom hi m = true) (h : lo ≤ hi) :
    Memory.wfFrom lo m = true := by
  cases m with
  | nil => rfl
  | cons p rest =>
    obtain ⟨a, b⟩ := p
    simp only [Memory.wfFrom, Bool.and_eq_true, decide_eq_true_eq] at hm ⊢
    exact ⟨⟨by omega, hm.1.2⟩, hm.2⟩

theorem wfFrom_erase {lo : Nat} {m : Memory} (hm : Memory.wfFrom lo m = true) (a : Nat) :
    Memory.wfFrom lo (Memory.erase m a) = true := by
  induction m generalizing lo with
  | nil => rfl
  | cons p rest ih =>
    obtain ⟨c, v⟩ := p
    simp only [Memory.wfFrom, Bool.and_eq_true, decide_eq_true_eq] at hm
    have hr := ih hm.2
    simp only [Memory.erase, List.filter_cons] at hr ⊢
    split
    · simp only [Memory.wfFrom, Bool.and_eq_true, decide_eq_true_eq]
      exact ⟨hm.1, hr⟩
    · exact wfFrom_mono hr (by omega)

theorem wfFrom_insert {lo a : Nat} {b : Byte} {m : Memory} (hm : Memory.wfFrom lo m = true) (hlo : lo ≤ a)
    (hb : b ≠ unlistedByte) (hfresh : ∀ v, (a, v) ∉ m) : Memory.wfFrom lo (Memory.insert m a b) = true := by
  induction m generalizing lo with
  | nil => simp [Memory.insert, Memory.wfFrom, hlo, hb]
  | cons p rest ih =>
    obtain ⟨c, v⟩ := p
    simp only [Memory.wfFrom, Bool.and_eq_true, decide_eq_true_eq] at hm
    simp only [Memory.insert]
    split
    · next h =>
      simp only [Memory.wfFrom, Bool.and_eq_true, decide_eq_true_eq, bne_iff_ne]
      exact ⟨⟨hlo, hb⟩, ⟨by omega, by simpa using hm.1.2⟩, hm.2⟩
    · next h =>
      have hca : c ≠ a := fun e => hfresh v (by simp [e])
      simp only [Memory.wfFrom, Bool.and_eq_true, decide_eq_true_eq]
      exact ⟨hm.1, ih hm.2 (by omega) fun w hw => hfresh w (List.mem_cons_of_mem _ hw)⟩

theorem wf_write {m : Memory} (hm : Memory.wf m = true) (a : Nat) (b : Byte) :
    Memory.wf (Memory.write m a b) = true := by
  unfold Memory.write Memory.wf at *
  split
  · exact wfFrom_erase hm a
  · next h => exact wfFrom_insert (wfFrom_erase hm a) (Nat.zero_le a) h (not_mem_erase m a)

theorem wf_writeBytes (bs : List Byte) {m : Memory} (hm : Memory.wf m = true) (a : Nat) :
    Memory.wf (Memory.writeBytes m a bs) = true := by
  induction bs generalizing m a with
  | nil => exact hm
  | cons b bs ih => exact ih (wf_write hm a b) (a + 1)

/-- Writing a unit keeps the canonical form. -/
theorem wf_writeUnit {m : Memory} (hm : Memory.wf m = true) (u : Nat) (v : UnitValue) :
    Memory.wf (Memory.writeUnit m u v) = true :=
  wf_writeBytes _ hm _

/-! ## Addresses listed -/

theorem below_erase {n : Nat} {m : Memory} (hm : Memory.below n m = true) (a : Nat) :
    Memory.below n (Memory.erase m a) = true := by
  simp only [Memory.below, List.all_eq_true, Memory.erase, List.mem_filter] at *
  exact fun c hc => hm c hc.1

theorem below_insert {n a : Nat} {m : Memory} (hm : Memory.below n m = true) (ha : a < n) (b : Byte) :
    Memory.below n (Memory.insert m a b) = true := by
  induction m with
  | nil => simpa [Memory.insert, Memory.below] using ha
  | cons p rest ih =>
    obtain ⟨c, v⟩ := p
    simp only [Memory.below, List.all_cons, Bool.and_eq_true, decide_eq_true_eq] at hm ih
    simp only [Memory.insert]
    split
    · simp only [Memory.below, List.all_cons, Bool.and_eq_true, decide_eq_true_eq]; exact ⟨ha, hm⟩
    · simp only [Memory.below, List.all_cons, Bool.and_eq_true, decide_eq_true_eq]; exact ⟨hm.1, ih hm.2⟩

theorem below_write {n a : Nat} {m : Memory} (hm : Memory.below n m = true) (ha : a < n) (b : Byte) :
    Memory.below n (Memory.write m a b) = true := by
  unfold Memory.write
  split
  · exact below_erase hm a
  · exact below_insert (below_erase hm a) ha b

theorem below_writeBytes {n : Nat} (bs : List Byte) {m : Memory} (hm : Memory.below n m = true) {a : Nat}
    (ha : a + bs.length ≤ n) : Memory.below n (Memory.writeBytes m a bs) = true := by
  induction bs generalizing m a with
  | nil => exact hm
  | cons b bs ih =>
    simp only [List.length_cons] at ha
    exact ih (below_write hm (by omega) b) (by omega)

/-- Writing a unit below the buffer's end lists no address at or above it (R34). -/
theorem below_writeUnit {n u : Nat} {m : Memory} (hm : Memory.below (5 * n) m = true) (hu : u < n) (v : UnitValue) :
    Memory.below (5 * n) (Memory.writeUnit m u v) = true :=
  below_writeBytes _ hm (by simp only [length_unitBytes]; omega)

/-! ## Equal memories are equal data -/

theorem read_of_wfFrom {lo x : Nat} {m : Memory} (hm : Memory.wfFrom lo m = true) (h : x < lo) :
    Memory.read m x = unlistedByte := by
  induction m generalizing lo with
  | nil => rfl
  | cons p rest ih =>
    obtain ⟨a, b⟩ := p
    simp only [Memory.wfFrom, Bool.and_eq_true, decide_eq_true_eq] at hm
    simp only [Memory.read]
    rw [if_neg (by omega)]
    exact ih hm.2 (by omega)

theorem eq_of_wfFrom {lo : Nat} {m n : Memory} (hm : Memory.wfFrom lo m = true) (hn : Memory.wfFrom lo n = true)
    (h : ∀ x, Memory.read m x = Memory.read n x) : m = n := by
  induction m generalizing lo n with
  | nil =>
    cases n with
    | nil => rfl
    | cons q rest =>
      obtain ⟨a, b⟩ := q
      simp only [Memory.wfFrom, Bool.and_eq_true, bne_iff_ne] at hn
      have := h a
      simp only [Memory.read, if_true] at this
      exact absurd this.symm hn.1.2
  | cons p rest ih =>
    obtain ⟨a, b⟩ := p
    have hm' := hm
    simp only [Memory.wfFrom, Bool.and_eq_true, bne_iff_ne, decide_eq_true_eq] at hm
    cases n with
    | nil =>
      have := h a
      simp only [Memory.read, if_true] at this
      exact absurd this hm.1.2
    | cons q rest' =>
      obtain ⟨c, d⟩ := q
      simp only [Memory.wfFrom, Bool.and_eq_true, bne_iff_ne, decide_eq_true_eq] at hn
      have hac : a = c := by
        rcases Nat.lt_trichotomy a c with hlt | heq | hgt
        · have := h a
          simp only [Memory.read, if_true] at this
          rw [if_neg (by omega), read_of_wfFrom hn.2 (by omega)] at this
          exact absurd this hm.1.2
        · exact heq
        · have := h c
          simp only [Memory.read, if_true] at this
          rw [if_neg (by omega), read_of_wfFrom hm.2 (by omega)] at this
          exact absurd this.symm hn.1.2
      subst hac
      have hbd : b = d := by simpa [Memory.read] using h a
      subst hbd
      congr 1
      refine ih hm.2 hn.2 fun x => ?_
      have hx := h x
      simp only [Memory.read] at hx
      by_cases hxa : x = a
      · rw [read_of_wfFrom hm.2 (by omega), read_of_wfFrom hn.2 (by omega)]
      · rwa [if_neg hxa, if_neg hxa] at hx

/-- Two memories in canonical form that read alike are the same data. -/
theorem memory_ext {m n : Memory} (hm : Memory.wf m = true) (hn : Memory.wf n = true)
    (h : ∀ x, Memory.read m x = Memory.read n x) : m = n :=
  eq_of_wfFrom hm hn h

/-! ## Several units -/

/-- Filling units: the buffer alone changes. -/
theorem fillUnits_eq (v : UnitValue) (us : List Nat) (s : State) :
    State.fillUnits v us s = { s with buf := (State.fillUnits v us s).buf } := by
  induction us generalizing s with
  | nil => rfl
  | cons u us ih => rw [State.fillUnits, ih]; rfl

/-- Reading a byte after units are filled: the value's byte inside a filled slice, the old byte elsewhere. -/
theorem read_fillUnits (v : UnitValue) (us : List Nat) (s : State) (x : Nat) :
    Memory.read (State.fillUnits v us s).buf x =
      if x / 5 ∈ us then v.extractLsb' (8 * (x % 5)) 8 else Memory.read s.buf x := by
  induction us generalizing s with
  | nil => simp [State.fillUnits]
  | cons u us ih =>
    rw [State.fillUnits, ih]
    by_cases hus : x / 5 ∈ us
    · simp [hus]
    · rw [if_neg hus]
      show Memory.read (Memory.writeUnit s.buf u v) x = _
      rw [read_writeUnit]
      by_cases hu : x / 5 = u
      · rw [if_pos (by omega), if_pos (by simp [hu]), show x - 5 * u = x % 5 by omega]
      · rw [if_neg (by omega), if_neg (by simp [hu, hus])]

theorem wf_fillUnits (v : UnitValue) (us : List Nat) {s : State} (h : Memory.wf s.buf = true) :
    Memory.wf (State.fillUnits v us s).buf = true := by
  induction us generalizing s with
  | nil => exact h
  | cons u us ih => exact ih (wf_writeUnit h u v)

theorem below_fillUnits {n : Nat} (v : UnitValue) {us : List Nat} (hus : ∀ u ∈ us, u < n) {s : State}
    (h : Memory.below (5 * n) s.buf = true) : Memory.below (5 * n) (State.fillUnits v us s).buf = true := by
  induction us generalizing s with
  | nil => exact h
  | cons u us ih =>
    exact ih (fun w hw => hus w (List.mem_cons_of_mem _ hw)) (below_writeUnit h (hus u (by simp)) v)

end Sys2Proof.Laws
end

