-- ==== Sys2Proof/Laws/Operands.lean ====
section
/-! SUPPORT. What the operand computations give: the clamp, digits, text, the packed unit, raw words, the unit index. -/

namespace Sys2Proof.Laws

open Sys2Proof.Machine

/-! ## Numbers and text -/

theorem clampNumber_of_neg {n : Int} (h : n < 0) : clampNumber n = 0 := by
  simp [clampNumber, clamp, h]

theorem clampNumber_of_large {n : Int} (h : 9999 < n) : clampNumber n = 9999 := by
  unfold clampNumber clamp
  rw [if_neg (by omega), if_pos (by omega)]
  rfl

theorem clampNumber_of_mem {n : Int} (h0 : 0 ≤ n) (h1 : n ≤ 9999) : (clampNumber n : Int) = n := by
  unfold clampNumber clamp
  rw [if_neg (by omega), if_neg (by omega)]
  omega

theorem clampNumber_le (n : Int) : clampNumber n ≤ 9999 := by
  unfold clampNumber clamp
  split_ifs <;> omega

theorem clampNumber_natCast {n : Nat} (h : n ≤ 9999) : clampNumber (n : Int) = n := by
  have := clampNumber_of_mem (n := (n : Int)) (by omega) (by omega)
  omega

/-- A clamped number is within the range, so clamping it again changes nothing (R74, R121). -/
theorem clampNumber_clampNumber (n : Int) : clampNumber (clampNumber n : Nat) = clampNumber n :=
  clampNumber_natCast (clampNumber_le n)

theorem charDigit_le (c : Byte) : charDigit c ≤ 9 := by
  unfold charDigit
  split_ifs <;> omega

/-- A character adds its digit times the weight of its position (R77). -/
theorem textContribution_eq (c : Byte) :
    textContribution 0 c = charDigit c * 1000 ∧ textContribution 1 c = charDigit c * 100 ∧
      textContribution 2 c = charDigit c * 10 ∧ textContribution 3 c = charDigit c := by
  unfold textContribution charDigit
  split_ifs
  · simp only [Nat.reducePow]
    omega
  · simp

/-! ## The packed unit -/

/-- Each bit of a packed unit is one bit of one pattern: bit `10q + i` is bit `i` of field `q` (R53, R54). -/
theorem getLsbD_packPatterns (p : Positions Pattern) (j : Nat) :
    (packPatterns p).getLsbD j =
      if j < 10 then p.units.getLsbD j
      else if j < 20 then p.tens.getLsbD (j - 10)
      else if j < 30 then p.hundreds.getLsbD (j - 20)
      else p.thousands.getLsbD (j - 30) := by
  by_cases hj : j < 40
  · simp only [packPatterns, joinBytes, packBytes, List.getD_cons_zero, List.getD_cons_succ, BitVec.getLsbD_append,
      BitVec.getLsbD_or, BitVec.getLsbD_shiftLeft, BitVec.getLsbD_extractLsb', BitVec.getLsbD_setWidth]
    interval_cases j <;> simp
  · rw [BitVec.getLsbD_of_ge _ _ (by omega), if_neg (by omega), if_neg (by omega), if_neg (by omega),
      BitVec.getLsbD_of_ge _ _ (by omega)]

/-! ## Digit recovery -/

theorem digitOf_eq_some {t : PatternTable} {p : Pattern} {d : DigitIndex} (h : digitOf t p = some d) :
    t.get d = p := by
  have := List.find?_some h
  simpa using this

theorem digitOf_eq_none_iff {t : PatternTable} {p : Pattern} : digitOf t p = none ↔ ∀ d, t.get d ≠ p := by
  simp [digitOf, List.find?_eq_none]

/-! ## Raw words and the unit index -/

theorem lookup_map_mem {f : RawWord → UnitValue} {ws : List RawWord} {w : RawWord} (h : w ∈ ws) :
    (ws.map fun x => (x, f x)).lookup w = some (f w) := by
  induction ws with
  | nil => simp at h
  | cons x xs ih =>
    simp only [List.map_cons, List.lookup_cons]
    by_cases hx : w = x
    · subst hx; simp
    · have : (w == x) = false := by simpa using hx
      simp [this, ih (by simpa [hx] using h)]

/-- Every function from raw words to unit values is the expansion of some table: holding `RAW_EXPAND` as a table leaves
the parameter as open as the spec does (R57). -/
theorem rawTable_represents_every_function (f : RawWord → UnitValue) :
    ∃ t : RawTable, ∀ w, rawExpand t w = f w := by
  refine ⟨⟨((List.range 65536).map (BitVec.ofNat 16)).map fun w => (w, f w)⟩, fun w => ?_⟩
  have hw : w ∈ (List.range 65536).map (BitVec.ofNat 16) :=
    List.mem_map.2 ⟨w.toNat, List.mem_range.2 (by omega), by simp⟩
  rw [rawExpand, lookup_map_mem hw]
  rfl

theorem wrapIndex_lt (n : BoardCount) (index : BitVec 8) : wrapIndex n index < n.count :=
  Nat.mod_lt _ (by have := n.one_le; omega)

theorem wrapIndex_of_lt {n : BoardCount} {index : BitVec 8} (h : index.toNat < n.count) :
    wrapIndex n index = index.toNat :=
  Nat.mod_eq_of_lt h

/-- A wrapped index fits the eight bits of the operand. -/
theorem toNat_wrapIndex (n : BoardCount) (index : BitVec 8) :
    (BitVec.ofNat 8 (wrapIndex n index)).toNat = wrapIndex n index := by
  have h := wrapIndex_lt n index
  have h' := n.le_255
  rw [BitVec.toNat_ofNat]
  exact Nat.mod_eq_of_lt (by omega)

/-- A wrapped index is within the board count, so wrapping it again changes nothing (R62, R122). -/
theorem wrapIndex_wrapIndex (n : BoardCount) (index : BitVec 8) :
    wrapIndex n (BitVec.ofNat 8 (wrapIndex n index)) = wrapIndex n index := by
  rw [wrapIndex_of_lt (by rw [toNat_wrapIndex]; exact wrapIndex_lt n index), toNat_wrapIndex]

end Sys2Proof.Laws
end

