-- ==== Sys2Proof/Laws/State.lean ====
section
/-! SUPPORT. One lemma per field per update of the state, so that no proof unfolds a record update. -/

namespace Sys2Proof.Laws

open Sys2Proof.Machine

variable (s : State)

/-! ## `State.writeUnit` -/

section writeUnit
variable (u : Nat) (v : UnitValue)
@[simp] theorem writeUnit_boards : (s.writeUnit u v).boards = s.boards := rfl
@[simp] theorem writeUnit_pins : (s.writeUnit u v).pins = s.pins := rfl
@[simp] theorem writeUnit_pattern : (s.writeUnit u v).pattern = s.pattern := rfl
@[simp] theorem writeUnit_platform : (s.writeUnit u v).platform = s.platform := rfl
@[simp] theorem writeUnit_buf : (s.writeUnit u v).buf = Memory.writeUnit s.buf u v := rfl
@[simp] theorem writeUnit_data : (s.writeUnit u v).data = s.data := rfl
@[simp] theorem writeUnit_clk : (s.writeUnit u v).clk = s.clk := rfl
@[simp] theorem writeUnit_latch : (s.writeUnit u v).latch = s.latch := rfl
@[simp] theorem writeUnit_hv : (s.writeUnit u v).hv = s.hv := rfl
@[simp] theorem writeUnit_brt : (s.writeUnit u v).brt = s.brt := rfl
@[simp] theorem writeUnit_ind : (s.writeUnit u v).ind = s.ind := rfl
@[simp] theorem writeUnit_seq : (s.writeUnit u v).seq = s.seq := rfl
@[simp] theorem writeUnit_sr : (s.writeUnit u v).sr = s.sr := rfl
@[simp] theorem writeUnit_vis : (s.writeUnit u v).vis = s.vis := rfl
@[simp] theorem writeUnit_trace : (s.writeUnit u v).trace = s.trace := rfl
@[simp] theorem writeUnit_port : (s.writeUnit u v).port = s.port := rfl
@[simp] theorem writeUnit_level (l : Line) : (s.writeUnit u v).level l = s.level l := by cases l <;> rfl
end writeUnit

/-! ## `State.emit` -/

section emit
variable (e : Event)
@[simp] theorem emit_boards : (s.emit e).boards = s.boards := rfl
@[simp] theorem emit_pins : (s.emit e).pins = s.pins := rfl
@[simp] theorem emit_pattern : (s.emit e).pattern = s.pattern := rfl
@[simp] theorem emit_platform : (s.emit e).platform = s.platform := rfl
@[simp] theorem emit_buf : (s.emit e).buf = s.buf := rfl
@[simp] theorem emit_hv : (s.emit e).hv = s.hv := rfl
@[simp] theorem emit_brt : (s.emit e).brt = s.brt := rfl
@[simp] theorem emit_ind : (s.emit e).ind = s.ind := rfl
@[simp] theorem emit_seq : (s.emit e).seq = s.seq := rfl
@[simp] theorem emit_port : (s.emit e).port = s.port := rfl
@[simp] theorem emit_trace : (s.emit e).trace = s.trace ++ [e] := rfl
end emit

/-! ## `State.tick` -/

section tick
variable (t : Tick)
@[simp] theorem tick_boards : (s.tick t).boards = s.boards := rfl
@[simp] theorem tick_pins : (s.tick t).pins = s.pins := rfl
@[simp] theorem tick_pattern : (s.tick t).pattern = s.pattern := rfl
@[simp] theorem tick_platform : (s.tick t).platform = s.platform := rfl
@[simp] theorem tick_buf : (s.tick t).buf = s.buf := rfl
@[simp] theorem tick_hv : (s.tick t).hv = s.hv := rfl
@[simp] theorem tick_brt : (s.tick t).brt = s.brt := rfl
@[simp] theorem tick_ind : (s.tick t).ind = s.ind := rfl
@[simp] theorem tick_seq : (s.tick t).seq = t.pos := rfl
@[simp] theorem tick_data : (s.tick t).data = (s.emit t.event).data := rfl
@[simp] theorem tick_clk : (s.tick t).clk = (s.emit t.event).clk := rfl
@[simp] theorem tick_latch : (s.tick t).latch = (s.emit t.event).latch := rfl
@[simp] theorem tick_sr : (s.tick t).sr = (s.emit t.event).sr := rfl
@[simp] theorem tick_vis : (s.tick t).vis = (s.emit t.event).vis := rfl
@[simp] theorem tick_port : (s.tick t).port = s.port := rfl
@[simp] theorem tick_trace : (s.tick t).trace = s.trace ++ [t.event] := rfl
end tick

/-! ## `State.present` -/

section present
variable (w : CmdWord)
@[simp] theorem present_boards : (s.present w).boards = s.boards := rfl
@[simp] theorem present_pattern : (s.present w).pattern = s.pattern := rfl
@[simp] theorem present_buf : (s.present w).buf = s.buf := rfl
@[simp] theorem present_sr : (s.present w).sr = s.sr := rfl
@[simp] theorem present_vis : (s.present w).vis = s.vis := rfl
@[simp] theorem present_trace : (s.present w).trace = s.trace := rfl
@[simp] theorem present_port : (s.present w).port = w :: s.port := rfl
@[simp] theorem fetch_present : (s.present w).fetch = some (w, s) := rfl
end present

/-! ## `exec` and `step`, one line each -/

theorem exec_setnum (n : Int) (m : BitVec 4) : exec (.setnum n m) s = .next (encodeNumber n m s) := rfl
theorem exec_settext (c0 c1 c2 c3 : Byte) :
    exec (.settext c0 c1 c2 c3) s = .next (encodeNumber (textValue c0 c1 c2 c3) 0b1111 s) := rfl
theorem exec_clear (f : RawWord) : exec (.clear f) s =
    .next (State.fillUnits (rawExpand s.platform.rawTable f) (List.range s.boards.count) s) := rfl
theorem exec_putunit (i : BitVec 8) (w : RawWord) : exec (.putunit i w) s =
    .next (s.writeUnit (wrapIndex s.boards i) (rawExpand s.platform.rawTable w)) := rfl
theorem exec_display : exec .display s = .next (s.transmit (displayTicks s.bufLength s.buf)) := rfl
theorem exec_shiftb (o : BitVec 4) (v : Byte) : exec (.shiftb o v) s = .next (s.transmit (shiftByte 0 o v)) := rfl

end Sys2Proof.Laws
end

