-- ==== Sys2Proof/Laws/Transmitter.lean ====
section
/-! SUPPORT. What the line and chain operations do: one event, one bit, a list of bits, one DISPLAY, one SHIFTB. -/

namespace Sys2Proof.Laws

open Sys2Proof.Machine

/-! ## One event -/

theorem emit_data (s : State) (b : Level) :
    s.emit ⟨.data, b⟩ = { s with data := b, trace := s.trace ++ [⟨.data, b⟩] } := by
  simp [State.emit, State.isRising]

theorem emit_clk_low (s : State) :
    s.emit ⟨.clk, false⟩ = { s with clk := false, trace := s.trace ++ [⟨.clk, false⟩] } := by
  simp [State.emit, State.isRising]

theorem emit_latch_low (s : State) :
    s.emit ⟨.latch, false⟩ = { s with latch := false, trace := s.trace ++ [⟨.latch, false⟩] } := by
  simp [State.emit, State.isRising]

theorem emit_clk_rising {s : State} (h : s.clk = false) : s.emit ⟨.clk, true⟩ =
    { s with clk := true, sr := s.sr.drop 1 ++ [s.data], trace := s.trace ++ [⟨.clk, true⟩] } := by
  simp [State.emit, State.isRising, State.level, h]

theorem emit_latch_rising {s : State} (h : s.latch = false) : s.emit ⟨.latch, true⟩ =
    { s with latch := true, vis := s.sr, trace := s.trace ++ [⟨.latch, true⟩] } := by
  simp [State.emit, State.isRising, State.level, h]

theorem isRising_iff (s : State) (line : Line) (e : Event) :
    s.isRising line e = true ↔ e = ⟨line, true⟩ ∧ s.level line = false := by
  obtain ⟨l, b⟩ := e
  simp [State.isRising, and_assoc]

/-- What one event can do to the chain: at a rising clock edge the chain shifts, at a rising latch edge it is copied,
at any other event neither `SR` nor `VIS` changes. -/
theorem emit_cases (s : State) (e : Event) :
    (e = ⟨.clk, true⟩ ∧ s.clk = false ∧ (s.emit e).sr = s.sr.drop 1 ++ [s.data] ∧ (s.emit e).vis = s.vis) ∨
    (e = ⟨.latch, true⟩ ∧ s.latch = false ∧ (s.emit e).sr = s.sr ∧ (s.emit e).vis = s.sr) ∨
    ((s.emit e).sr = s.sr ∧ (s.emit e).vis = s.vis) := by
  by_cases hc : s.isRising .clk e = true
  · obtain ⟨rfl, h⟩ := (isRising_iff s .clk e).1 hc
    exact .inl ⟨rfl, h, by rw [emit_clk_rising h]; exact ⟨rfl, rfl⟩⟩
  by_cases hl : s.isRising .latch e = true
  · obtain ⟨rfl, h⟩ := (isRising_iff s .latch e).1 hl
    exact .inr (.inl ⟨rfl, h, by rw [emit_latch_rising h]; exact ⟨rfl, rfl⟩⟩)
  exact .inr (.inr ⟨if_neg hc, if_neg hl⟩)

/-- The level of each line after one event. -/
theorem emit_level (s : State) (e : Event) (l : Line) :
    (s.emit e).level l = if e.line = l then e.level else s.level l := by
  cases l <;> rfl

/-! ## Lists of events -/

theorem emitAll_append (xs ys : List Event) (s : State) :
    State.emitAll (xs ++ ys) s = State.emitAll ys (State.emitAll xs s) := by
  induction xs generalizing s with
  | nil => rfl
  | cons x xs ih => exact ih _

theorem ticks_append (xs ys : List Tick) (s : State) :
    State.ticks (xs ++ ys) s = State.ticks ys (State.ticks xs s) := by
  induction xs generalizing s with
  | nil => rfl
  | cons x xs ih => exact ih _

theorem emitAll_trace (es : List Event) (s : State) : (State.emitAll es s).trace = s.trace ++ es := by
  induction es generalizing s with
  | nil => simp [State.emitAll]
  | cons e es ih => rw [State.emitAll, ih]; simp

theorem emit_withSeq (s : State) (q : Option SeqPos) (e : Event) :
    State.emit { s with seq := q } e = { s.emit e with seq := q } := rfl

/-- A list of ticks does what its events do, and leaves the walk where its last tick has it. -/
theorem ticks_eq_emitAll (ts : List Tick) (s : State) :
    State.ticks ts s =
      { State.emitAll (ts.map Tick.event) s with seq := (State.ticks ts s).seq } := by
  have key : ∀ (ts : List Tick) (s : State) (q : Option SeqPos),
      { State.ticks ts { s with seq := q } with seq := none } =
        { State.emitAll (ts.map Tick.event) s with seq := none } := by
    intro ts
    induction ts with
    | nil => intros; rfl
    | cons t ts ih =>
      intro s q
      have h1 : State.tick { s with seq := q } t = { s.emit t.event with seq := t.pos } := by
        rw [State.tick, emit_withSeq]
      rw [State.ticks, h1, ih]
      rfl
  have := key ts s s.seq
  generalize State.ticks ts s = a at *
  generalize State.emitAll (ts.map Tick.event) s = b at *
  obtain ⟨⟩ := a
  obtain ⟨⟩ := b
  simp only [State.mk.injEq] at this ⊢
  simp_all

theorem emitAll_seq (es : List Event) (s : State) : (State.emitAll es s).seq = s.seq := by
  induction es generalizing s with
  | nil => rfl
  | cons e es ih => rw [State.emitAll, ih]; simp

/-- A whole transmission is its events, in order. -/
theorem transmit_eq_emitAll (ts : List Tick) (s : State) :
    s.transmit ts = State.emitAll (ts.map Tick.event) s := by
  rw [State.transmit, ticks_eq_emitAll]
  have h := emitAll_seq (ts.map Tick.event) s
  generalize State.emitAll (ts.map Tick.event) s = b at *
  obtain ⟨⟩ := b
  subst h
  rfl

/-- Events change the three lines, the chain and the trace, and nothing else. -/
theorem emitAll_frame (es : List Event) (s : State) :
    State.emitAll es s = { s with
      data := (State.emitAll es s).data, clk := (State.emitAll es s).clk, latch := (State.emitAll es s).latch,
      sr := (State.emitAll es s).sr, vis := (State.emitAll es s).vis, trace := s.trace ++ es } := by
  induction es generalizing s with
  | nil => simp [State.emitAll]
  | cons e es ih =>
    have h := ih (s.emit e)
    rw [emit_trace, List.append_assoc, List.singleton_append] at h
    exact h

/-! ## The last write on a line -/

/-- The last write of a longer trace is that of its new part, if that part has one. -/
theorem lastWrite_append (l : Line) (xs ys : List Event) :
    lastWrite l (xs ++ ys) = (lastWrite l ys).or (lastWrite l xs) := by
  simp only [lastWrite, List.filter_append, List.getLast?_append]
  cases (ys.filter fun e => e.line == l).getLast? <;> simp

/-- Events keep each line at the level last written to it (R17). -/
theorem emitAll_lines_hold (es : List Event) {s : State}
    (h : ∀ l b, lastWrite l s.trace = some b → s.level l = b) (l : Line) (b : Level)
    (hb : lastWrite l (State.emitAll es s).trace = some b) : (State.emitAll es s).level l = b := by
  induction es generalizing s with
  | nil => exact h l b hb
  | cons e es ih =>
    refine ih (fun k c hc => ?_) hb
    rw [emit_level]
    rw [emit_trace, lastWrite_append] at hc
    by_cases hk : e.line = k
    · rw [if_pos hk]
      simpa [lastWrite, hk] using hc
    · rw [if_neg hk]
      have hn : (e.line == k) = false := by simpa using hk
      exact h k c (by simpa [lastWrite, hn] using hc)

/-! ## Bits into the chain -/

/-- Bits captured one after another: each drops the oldest bit and joins at the end (R99). -/
def shiftIn : List Bool → List Bool → List Bool
  | sr, [] => sr
  | sr, b :: bs => shiftIn (sr.drop 1 ++ [b]) bs

theorem shiftIn_of_le (bs : List Bool) {sr : List Bool} (h : bs.length ≤ sr.length) :
    shiftIn sr bs = sr.drop bs.length ++ bs := by
  induction bs generalizing sr with
  | nil => simp [shiftIn]
  | cons b bs ih =>
    simp only [List.length_cons] at h
    rw [shiftIn, ih (by simp; omega), List.drop_append_of_le_length (by simp; omega), List.drop_drop,
      List.append_assoc, List.singleton_append, List.length_cons, Nat.add_comm 1]

/-- Bits as many as the chain is long replace it wholly. -/
theorem shiftIn_full {sr bs : List Bool} (h : sr.length = bs.length) : shiftIn sr bs = bs := by
  rw [shiftIn_of_le bs (by omega), List.drop_eq_nil_of_le (by omega), List.nil_append]

/-- One bit sent (R91, R99): the data line holds it, the clock is high, the chain has captured it. -/
theorem emitAll_bitEvents (b : Bool) (s : State) : State.emitAll (bitEvents b) s =
    { s with data := b, clk := true, sr := s.sr.drop 1 ++ [b], trace := s.trace ++ bitEvents b } := by
  simp only [bitEvents, State.emitAll]
  rw [emit_data, emit_clk_low, emit_clk_rising rfl]
  simp

/-- Bits sent one after another. -/
theorem emitAll_bits (bs : List Bool) (s : State) : State.emitAll (bs.flatMap bitEvents) s =
    { s with data := bs.getLastD s.data, clk := if bs = [] then s.clk else true, sr := shiftIn s.sr bs,
             trace := s.trace ++ bs.flatMap bitEvents } := by
  induction bs generalizing s with
  | nil => simp [State.emitAll, shiftIn]
  | cons b bs ih =>
    rw [List.flatMap_cons, emitAll_append, emitAll_bitEvents, ih, List.getLastD_cons]
    simp [shiftIn]

/-- The latch pulse (R93, R100): the latch line is high and the chain is visible. -/
theorem emitAll_latchEvents (s : State) : State.emitAll latchEvents s =
    { s with latch := true, vis := s.sr, trace := s.trace ++ latchEvents } := by
  simp only [latchEvents, State.emitAll]
  rw [emit_latch_low, emit_latch_rising rfl]
  simp

/-! ## The events of the commands -/

/-- The bits that `ShiftByte(order, v)` sends, first to last (R92). -/
def byteBits (order : BitVec 4) (v : Byte) : List Bool := (List.range 8).filterMap (shiftBit order v)

theorem events_shiftByte (i : Nat) (order : BitVec 4) (v : Byte) :
    (shiftByte i order v).map Tick.event = (byteBits order v).flatMap bitEvents := by
  have h : ∀ js : List Nat,
      (js.flatMap fun j => match shiftBit order v j with | some b => bitOut ⟨i, j⟩ b | none => []).map Tick.event =
        (js.filterMap (shiftBit order v)).flatMap bitEvents := by
    intro js
    induction js with
    | nil => rfl
    | cons j js ih =>
      rw [List.flatMap_cons, List.map_append, ih]
      cases hb : shiftBit order v j with
      | none => simp [hb]
      | some b => simp [hb, bitOut, bitEvents]
  exact h _

theorem byteBits_lsb (v : Byte) : byteBits 0 v = (List.range 8).map v.getLsbD := rfl

theorem byteBits_msb (v : Byte) : byteBits 1 v = (List.range 8).map fun j => v.getLsbD (7 - j) := rfl

theorem byteBits_unsupported {order : BitVec 4} (h0 : order ≠ 0) (h1 : order ≠ 1) (v : Byte) :
    byteBits order v = [] := by
  exact List.filterMap_eq_nil_iff.2 fun j _ => by rw [shiftBit, if_neg h0, if_neg h1]

/-- The data bits of a transmission of `n` bytes, in the order sent (R95). -/
def serialBits (n : Nat) (m : Memory) : List Bool := (List.range (8 * n)).map (serialBit m)

@[simp] theorem length_serialBits (n : Nat) (m : Memory) : (serialBits n m).length = 8 * n := by simp [serialBits]

theorem serialBits_succ (n : Nat) (m : Memory) :
    serialBits (n + 1) m = serialBits n m ++ (List.range 8).map (Memory.read m n).getLsbD := by
  simp only [serialBits, Nat.mul_add, Nat.mul_one, List.range_add, List.map_append, List.map_map]
  congr 1
  refine List.map_congr_left fun j hj => ?_
  have : j < 8 := List.mem_range.1 hj
  simp only [Function.comp, serialBit, show (8 * n + j) / 8 = n by omega, show (8 * n + j) % 8 = j by omega]

theorem events_displayTicks (n : Nat) (m : Memory) :
    (displayTicks n m).map Tick.event = (serialBits n m).flatMap bitEvents ++ latchEvents := by
  have h : ((List.range n).flatMap fun i => shiftByte i 0 (Memory.read m i)).map Tick.event =
      (serialBits n m).flatMap bitEvents := by
    induction n with
    | zero => rfl
    | succ n ih =>
      rw [List.range_succ, List.flatMap_append, List.map_append, ih, serialBits_succ, List.flatMap_append,
        List.flatMap_singleton, events_shiftByte, byteBits_lsb]
  rw [displayTicks, List.map_append, h]
  rfl

/-- Data bit `k` is bit `k mod 40` of unit `k div 40` (R95). -/
theorem serialBit_eq_unit (m : Memory) (k : Nat) :
    serialBit m k = (Memory.readUnit m (k / 40)).getLsbD (k % 40) := by
  rw [getLsbD_readUnit _ _ (by omega), serialBit, show 5 * (k / 40) + k % 40 / 8 = k / 8 by omega,
    show k % 40 % 8 = k % 8 by omega]

/-- One whole transmission of a buffer of `n` bytes, `n` positive. -/
theorem transmit_display {n : Nat} (hn : 0 < n) (m : Memory) (s : State) : s.transmit (displayTicks n m) =
    { s with data := serialBit m (8 * n - 1), clk := true, latch := true, sr := shiftIn s.sr (serialBits n m),
             vis := shiftIn s.sr (serialBits n m),
             trace := s.trace ++ ((serialBits n m).flatMap bitEvents ++ latchEvents) } := by
  have hne : serialBits n m ≠ [] := fun h => by
    have := length_serialBits n m
    rw [h] at this
    simp at this
    omega
  have hlast : (serialBits n m).getLastD s.data = serialBit m (8 * n - 1) := by
    obtain ⟨k, rfl⟩ : ∃ k, n = k + 1 := ⟨n - 1, by omega⟩
    simp [serialBits, show 8 * (k + 1) = 8 * k + 7 + 1 by omega, List.range_succ]
  rw [transmit_eq_emitAll, events_displayTicks, emitAll_append, emitAll_bits, emitAll_latchEvents, hlast, if_neg hne]
  simp

/-- One SHIFTB: its bits enter the chain, nothing becomes visible (R96). -/
theorem transmit_shiftByte (i : Nat) (order : BitVec 4) (v : Byte) (s : State) : s.transmit (shiftByte i order v) =
    { s with data := (byteBits order v).getLastD s.data,
             clk := if byteBits order v = [] then s.clk else true,
             sr := shiftIn s.sr (byteBits order v),
             trace := s.trace ++ (byteBits order v).flatMap bitEvents } := by
  rw [transmit_eq_emitAll, events_shiftByte, emitAll_bits]

end Sys2Proof.Laws
end

