-- ==== Sys2Proof/Tests/Slice0.lean ====
section
/-! SUPPORT. Our own tests. Expected values are those of spec/95_test_vectors.md, which gives them under its reference
configuration REF (spec/30_encoding.md R49, R59): no claim about the board. Then one witness for each statement that
has hypotheses. -/

namespace Sys2Proof.Tests

open Sys2Proof.Machine

/-! ## The reference configuration -/

/-- `PATTERN_REF` (R49). -/
def refPattern : PatternTable :=
  #v[0x001, 0x002, 0x004, 0x008, 0x010, 0x020, 0x040, 0x080, 0x100, 0x200, 0x000]

/-- `RAW_EXPAND_REF` (R59): the low ten bits in all four fields. -/
def refExpand (w : RawWord) : UnitValue :=
  packPatterns ⟨w.setWidth 10, w.setWidth 10, w.setWidth 10, w.setWidth 10⟩

/-- The reference platform, with the raw words that the tests use. -/
def refPlatform : Platform where
  rawTable := ⟨[0x0000, 0x03FF, 0x0155].map fun w => (w, refExpand w)⟩
  defaultBlank := 0x0000
  oePwm := false
  indPwm := true

/-- A block of `n` boards under REF, every unspecified value 0 and no event yet. -/
def refState (n : BoardCount) : State :=
  { State.reset with
    boards := n, pattern := refPattern, platform := refPlatform
    sr := List.replicate (40 * n.count) false, vis := List.replicate (40 * n.count) false }

/-- One board. -/
def one : State := refState BoardCount.default

/-- Three boards. -/
def three : State := refState ⟨3, by decide, by decide⟩

/-- What a function reads of the next state, if there is one. -/
def after {α : Type} (o : Host.Outcome State Fault Refusal) (f : State → α) : Option α :=
  match o with
  | .next t => some (f t)
  | .fault _ => none
  | .refused _ => none

/-- The first `n` bytes of the buffer. -/
def bytes (n : Nat) (s : State) : List Byte := (List.range n).map (Memory.read s.buf)

/-- A buffer of five bytes. -/
def withBytes (s : State) (bs : List Byte) : State := { s with buf := Memory.writeBytes [] 0 bs }

/-! ## Well-formedness: an ill-formed term for each check -/

theorem test_wellFormed_refuses_large : (Instr.setnum 2147483648 0b1111).wellFormed = false := by decide
theorem test_wellFormed_refuses_small : (Instr.setnum (-2147483649) 0b1111).wellFormed = false := by decide
theorem test_wellFormed_takes_ends :
    (Instr.setnum 2147483647 0).wellFormed = true ∧ (Instr.setnum (-2147483648) 0).wellFormed = true := by decide

/-! ## Decoding: words written out from R65 to R67, and the table of 2.8 -/

-- op 0001, a 0111, p 0x00000103 (2.3)
theorem test_decode_setnum :
    decode 0b0001011100000000000000000000000100000011#40 = .command (.setnum 259 0b0111) := by decide
theorem test_decode_setnum_negative : decode 0x1FFFFFFFFB#40 = .command (.setnum (-5) 0b1111) := by decide
-- op 0010, a 0000, p "12 5" (2.4)
theorem test_decode_settext :
    decode 0b0010000000110001001100100010000000110101#40 = .command (.settext 0x31 0x32 0x20 0x35) := by decide
theorem test_decode_settext_reserved : decode 0x2F31322035#40 = decode 0x2031322035#40 := by decide
-- op 0011, fill 0x03FF (2.5)
theorem test_decode_clear :
    decode 0b0011000000000000000000000000001111111111#40 = .command (.clear 0x03FF) := by decide
theorem test_decode_clear_reserved : decode 0x3FFFFF03FF#40 = .command (.clear 0x03FF) := by decide
-- op 0100, index 3, word 0x0155 (2.5)
theorem test_decode_putunit :
    decode 0b0100000000000000000000110000000101010101#40 = .command (.putunit 3 0x0155) := by decide
theorem test_decode_putunit_reserved : decode 0x40FF030155#40 = .command (.putunit 3 0x0155) := by decide
theorem test_decode_display :
    decode 0b0101000000000000000000000000000000000000#40 = .command .display := by decide
theorem test_decode_display_reserved : decode 0x5FFFFFFFFF#40 = .command .display := by decide
-- op 0110, order 1, byte 0x01 (2.6)
theorem test_decode_shiftb :
    decode 0b0110000100000000000000000000000000000001#40 = .command (.shiftb 1 0x01) := by decide
theorem test_decode_sethv : decode 0x80000000FF#40 = .command (.sethv true) := by decide
theorem test_decode_sethv_off : decode 0x80000000FE#40 = .command (.sethv false) := by decide
theorem test_decode_setbrt : decode 0x9000000180#40 = .command (.setbrt 128) := by decide
theorem test_decode_setind : decode 0xA0000000C8#40 = .command (.setind 200) := by decide
theorem test_decode_reserved : decode 0x0000000000#40 = .reserved 0 ∧ decode 0x7300001234#40 = .reserved 7 ∧
    decode 0xB000000000#40 = .reserved 11 ∧ decode 0xFFFFFFFFFF#40 = .reserved 15 := by decide
theorem test_encode : encode (.setnum (-5) 0b1111) = 0x1FFFFFFFFB#40 ∧
    encode (.settext 0x31 0x32 0x20 0x35) = 0x2031322035#40 ∧ encode (.putunit 3 0x0155) = 0x4000030155#40 ∧
    encode (.shiftb 2 0xFF) = 0x62000000FF#40 ∧ encode (.sethv true) = 0x8000000001#40 := by decide
theorem test_decodeTableWord : decodeTableWord 40 0x6100000001 = some (.shiftb 1 0x01) ∧
    decodeTableWord 40 0x7300001234 = none := by decide

/-! ## SETNUM and SETTEXT (2.3, 2.4) -/

theorem test_setnum_259 :
    after (exec (.setnum 259 0b1111) (withBytes one [0xAA, 0xAA, 0xAA, 0xAA, 0xAA])) (bytes 5) =
      some [0x00, 0x82, 0x40, 0x40, 0x00] := by decide
theorem test_setnum_masked :
    after (exec (.setnum 1234 0b0101) (withBytes one [0xAA, 0xAA, 0xAA, 0xAA, 0xAA])) (bytes 5) =
      some [0x10, 0x00, 0x40, 0x00, 0x00] := by decide
theorem test_settext_quirk : after (exec (.settext 0x31 0x32 0x20 0x35) one) (bytes 5) =
    some [0x20, 0x04, 0x40, 0x80, 0x00] := by decide
theorem test_settext_value : textValue 0x35 0x78 0x35 0x78 = 5050 ∧ textValue 0x2F 0x30 0x39 0x3A = 90 := by decide

/-! ## CLEAR and PUTUNIT (2.5) -/

theorem test_clear_all : after (exec (.clear 0x0155) three) (bytes 16) =
    some [0x55, 0x55, 0x55, 0x55, 0x55, 0x55, 0x55, 0x55, 0x55, 0x55, 0x55, 0x55, 0x55, 0x55, 0x55, 0x00] := by decide
theorem test_clear_zero_is_canonical :
    after (exec (.clear 0x0000) (withBytes three [1, 2, 3])) State.buf = some [] := by decide
theorem test_putunit_wraps : after (exec (.putunit 200 0x03FF) (withBytes three [1, 2])) (bytes 15) =
    some [1, 2, 0, 0, 0, 0, 0, 0, 0, 0, 0xFF, 0xFF, 0xFF, 0xFF, 0xFF] := by decide
theorem test_putunit_last_index : after (exec (.putunit 255 0x03FF) three) (bytes 6) =
    some [0xFF, 0xFF, 0xFF, 0xFF, 0xFF, 0] := by decide

/-! ## DISPLAY and SHIFTB (2.6) -/

theorem test_display_counts :
    after (exec .display one) (fun t => (t.trace.length, t.trace.count ⟨.data, true⟩, t.clk, t.latch)) =
      some (122, 0, true, true) := by decide +kernel
theorem test_display_bits : after (exec .display (withBytes one [0x00, 0x82, 0x40, 0x40, 0x00]))
    (fun t => ((List.range 40).filter fun k => t.vis.getD k false)) = some [9, 15, 22, 30] := by decide +kernel
theorem test_shiftb_msb : after (exec (.shiftb 1 0x01) one) (fun t => (t.sr.drop 32, t.data, t.clk, t.latch)) =
    some ([false, false, false, false, false, false, false, true], true, true, false) := by decide
theorem test_shiftb_unsupported : after (exec (.shiftb 2 0xFF) one) State.trace = some [] := by decide

/-! ## Power and brightness (2.7) -/

theorem test_sethv_off_keeps_vis : after (exec (.sethv false) one) State.hv = some false := by decide
theorem test_setbrt_binary : after (exec (.setbrt 128) one) State.effectiveBrightness = some 255 := by decide
theorem test_setbrt_dark : after (exec (.setbrt 0) one) State.effectiveBrightness = some 0 := by decide
theorem test_setind_proportional : after (exec (.setind 200) one) State.indicatorIntensity = some 200 := by decide

/-! ## The step and the assembler -/

theorem test_step_runs_first_word : after (step (State.reset.withFetchWord 40 0x90000000FF)) State.brt = some 255 := by
  decide
theorem test_step_takes_the_word :
    after (step ((one.present 0x8000000001#40).present 0x7300001234#40)) State.port = some [0x8000000001#40] := by
  decide
theorem test_asmLine : (Instr.shiftb 1 1).asmLine = "SHIFTB 1, 1" := by decide

/-! ## Witnesses: a state and operands that meet the hypotheses of each statement -/

theorem refState_inv (n : BoardCount) : (refState n).Inv where
  buf_wf := rfl
  buf_below := rfl
  sr_length := by simp [refState, State.chainLength]
  vis_length := by simp [refState, State.chainLength]
  no_walk := rfl
  lines_hold := by simp [refState, State.reset, lastWrite]
  clk_high := by simp [refState, State.reset, lastWrite]
  latch_high := by simp [refState, State.reset, lastWrite]

theorem refPattern_distinct : refPattern.Distinct := by decide

theorem refPattern_darkZero : refPattern.DarkZero := by decide

theorem ref_rawBlank : RawBlank refPattern refPlatform := by decide

theorem test_witness_DecodeOfEncodeIsTheCommand : (Instr.setnum (-2147483648) 0b1111).wellFormed = true := by decide
theorem test_witness_EncodeOfDecodeClearsReservedBits :
    decode 0x40FF030155#40 = .command (.putunit 3 0x0155) := by decide
theorem test_witness_ReservedBitsAreIgnored :
    0x40FF030155#40 &&& namedBits (opField 0x40FF030155#40) =
      0x4000030155#40 &&& namedBits (opField 0x40FF030155#40) ∧
    (Instr.setnum 2147483647 0b0000).wellFormed = true := by decide
theorem test_witness_ReservedOpcodeDoesNothing :
    (one.present 0xB000000000#40).port = [0xB000000000#40] ∧ 11 ≤ (opField 0xB000000000#40).toNat ∧
    (opField 0x7FFFFFFFFF#40).toNat = 7 ∧ (opField 0x0FFFFFFFFF#40).toNat = 0 ∧
    11 ≤ (opField 0xFFFFFFFFFF#40).toNat := by decide
theorem test_witness_StepRunsTheDecodedCommand :
    (one.present 0x8000000001#40).port = 0x8000000001#40 :: [] ∧
    decode 0x8000000001#40 = .command (.sethv true) := by decide
theorem test_witness_IdleKeepsAllState : one.port = [] := by decide
theorem test_witness_SteppingRunsTheCommandsInOrder :
    ∀ i ∈ [Instr.setnum 259 0b1111, .display], i.wellFormed = true := by decide
theorem test_witness_NumberIsClamped :
    (-1 : Int) < 0 ∧ (9999 : Int) < 10000 ∧ (0 : Int) ≤ 0 ∧ (0 : Int) ≤ 9999 ∧ (9999 : Int) ≤ 9999 := by decide
theorem test_witness_TextValueWeighsDigits :
    (0x2F#8).toNat < 0x30 ∧ 0x39 < (0x3A#8).toNat ∧ 0x30 ≤ (0x30#8).toNat ∧ (0x39#8).toNat ≤ 0x39 := by decide
theorem test_witness_UnpackInvertsPack :
    refPattern.Distinct ∧ ∀ d : DigitIndex, refPattern.get d ≠ 0x3FF := ⟨refPattern_distinct, by decide⟩
theorem test_witness_SetnumWritesThePackedDigits : 5 ≤ (5 : Nat) := by decide
theorem test_witness_ClearFillsEveryUnit : 2 < three.boards.count ∧ 5 * three.boards.count ≤ 15 := by decide
theorem test_witness_PutunitWritesTheWrappedUnit :
    wrapIndex three.boards 200 = 2 ∧ ¬ (5 * wrapIndex three.boards 200 ≤ 9 ∧ 9 < 5 * wrapIndex three.boards 200 + 5) ∧
    ¬ (5 * wrapIndex three.boards 200 ≤ 15 ∧ 15 < 5 * wrapIndex three.boards 200 + 5) := by decide
theorem test_witness_EncoderMeetsTheSourcesProperties :
    (9999 : Nat) ≤ 9999 ∧ (-5 : Int) < 0 ∧ (9999 : Int) < 10000 ∧ (0b0111#4).getLsbD 3 = false ∧
    (0b1011#4).getLsbD 2 = false ∧ (0b1101#4).getLsbD 1 = false ∧ (0b1110#4).getLsbD 0 = false ∧
    refPattern.Distinct := ⟨by decide, by decide, by decide, by decide, by decide, by decide, by decide,
      refPattern_distinct⟩
theorem test_witness_EncoderCommandsAgree : one.Inv ∧ (Instr.clear 0x0155).writesBuf = true :=
  ⟨refState_inv _, rfl⟩
theorem test_witness_DarkUnitIsReachedThreeWays :
    RawBlank three.pattern three.platform ∧ 2 < three.boards.count ∧ refPattern.DarkZero :=
  ⟨ref_rawBlank, by decide, refPattern_darkZero⟩
theorem test_witness_SilentCorrectionsReplaceTheOperand :
    ((-5 : Int) < 0 ∨ (9999 : Int) < -5) ∧ three.boards.count ≤ (3#8).toNat ∧ (2#4 ≠ 0 ∧ 2#4 ≠ 1) := by decide
theorem test_witness_CorrectionsDoNotMeet :
    decode 0x8000000001#40 = .command (.sethv true) ∧ 0x8000000001#40 = encode (.sethv true) ∧
    decode 0x80000000FF#40 = .command (.sethv true) ∧ 0x80000000FF#40 ≠ encode (.sethv true) ∧
    corrected three.boards (.setnum (-1) 5) = some (.setnum 0 5) ∧
    corrected three.boards (.putunit 3 7) = some (.putunit 0 7) ∧
    corrected three.boards (.shiftb 1 7) = some (.shiftb 1 7) ∧ corrected three.boards (.shiftb 2 7) = none ∧
    three.pattern.Distinct ∧ decode 0x7300001234#40 = .reserved 7 :=
  ⟨by decide, by decide, by decide, by decide, by decide, by decide, by decide, by decide, refPattern_distinct,
    by decide⟩
theorem test_witness_EmitSetsTheLineAndJoinsTheTrace :
    Line.clk ≠ Line.latch ∧ one.level .clk = false := by decide
theorem test_witness_ClockEdgeShiftsTheChain :
    one.sr.length = one.chainLength ∧ one.clk = false ∧ 38 + 1 < one.chainLength := by decide
theorem test_witness_LatchEdgeCommitsTheChain :
    one.latch = false ∧ ¬ ((⟨.clk, true⟩ : Event) = ⟨.latch, true⟩ ∧ one.latch = false) := by decide
theorem test_witness_ShiftByteFollowsTheOrder : (0#4 = 0) ∧ (1#4 = 1) ∧ (2#4 ≠ 0 ∧ 2#4 ≠ 1) := by decide
theorem test_witness_DisplayShowsTheBuffer :
    three.sr.length = three.chainLength ∧ 2 < three.boards.count ∧ 3 < 4 := by decide
theorem test_witness_NoPartialCommit :
    121 < 120 * one.boards.count + 2 ∧ 120 * one.boards.count + 2 ≤ 122 := by decide
theorem test_witness_DisplayEventCounts :
    (∀ a, a < 5 * one.boards.count → Memory.read one.buf a = 0) ∧ Line.clk ≠ .data := by decide
theorem test_witness_DisplayTwiceIsDisplayOnce : three.Inv := refState_inv _
theorem test_witness_ShiftbSendsOneByte : one.sr.length = one.chainLength ∧ 15#4 ≠ 0 ∧ 15#4 ≠ 1 := by decide
theorem test_witness_ShiftbIsUnseenAfterDisplay : one.Inv := refState_inv _
theorem test_witness_TransmissionIgnoresPower :
    Instr.shiftb 1 0x01 = .display ∨ ∃ order v, Instr.shiftb 1 0x01 = .shiftb order v := .inr ⟨1, 0x01, rfl⟩
theorem test_witness_SetbrtSetsTheBrightness : one.platform.oePwm = false ∧
    ({ one with platform := { refPlatform with oePwm := true } } : State).platform.oePwm = true ∧ 1#8 ≠ 0 := by decide
theorem test_witness_SetindSetsTheIndicator : one.platform.indPwm = true ∧
    ({ one with platform := { refPlatform with indPwm := false } } : State).platform.indPwm = false ∧
    1#8 ≠ 0 := by decide
theorem test_witness_PowerCommandsCommute :
    (Instr.setbrt 7).isPower = true ∧ Instr.display.isPower = false := by decide
theorem test_witness_OnlyEncoderCommandsWriteTheBuffer :
    exec (.sethv true) one = .next { one with hv := true } ∧ (Instr.sethv true).writesBuf = false ∧
    exec (.setnum 7 1) one = .next (encodeNumber 7 1 one) ∧ (Instr.setnum 7 1).writesBuf = true :=
  ⟨rfl, rfl, rfl, rfl⟩
theorem test_witness_OnlyTheTransmitterDrivesTheBus :
    exec (.sethv true) one = .next { one with hv := true } ∧ Instr.sethv true ≠ .display ∧
    ∀ order v, Instr.sethv true ≠ .shiftb order v := ⟨rfl, by decide, by simp⟩
theorem test_witness_EachPowerRegisterHasOneWriter :
    exec (.setbrt 3) one = .next { one with brt := 3 } ∧ (∀ on, Instr.setbrt 3 ≠ .sethv on) ∧
    (∀ level, Instr.setbrt 3 ≠ .setind level) ∧ exec (.sethv true) one = .next { one with hv := true } ∧
    (∀ level, Instr.sethv true ≠ .setbrt level) := ⟨rfl, by simp, by simp, rfl, by simp⟩
theorem test_witness_ConfigurationNeverChanges :
    step (one.present 0x8000000001#40) = .next { one with hv := true } := rfl
theorem test_witness_TheTraceAccountsForTheBus :
    exec (.shiftb 0 0x82) one = .next (one.transmit (shiftByte 0 0 0x82)) := rfl
theorem test_witness_EncodingDoesNotDisplay : one.Inv ∧
    ∀ i ∈ [Instr.clear 0x0000, .setnum 7 0b0001], i.writesBuf = true := ⟨refState_inv _, by decide⟩
theorem test_witness_NumberIsShownAfterDisplay : one.Inv := refState_inv _
theorem test_witness_ConstructionGivesTheResetState :
    1 ≤ 1 ∧ 255 ≤ 255 ∧ 39 < 40 * 1 ∧ 10199 < 40 * 255 := by decide
theorem test_witness_ConstructionRefusesABadCount : (0 = 0 ∨ 255 < 0) ∧ (256 = 0 ∨ 255 < 256) := by decide
theorem test_witness_ConstructionMeetsTheInvariant :
    State.construct 1 Config.pins Config.pattern Config.platform ⟨false, false, false, false, 0, 0, 0, 0⟩ =
      .next State.reset := rfl
theorem test_witness_StepKeepsTheInvariant : (one.present 0x8000000001#40).Inv ∧
    step (one.present 0x8000000001#40) = .next { one with hv := true } :=
  ⟨⟨rfl, rfl, rfl, rfl, rfl, (refState_inv BoardCount.default).lines_hold,
    (refState_inv BoardCount.default).clk_high, (refState_inv BoardCount.default).latch_high⟩,
    rfl⟩
theorem test_witness_FirstDisplayAfterResetIsBlank :
    (after (State.construct 3 Config.pins refPattern refPlatform ⟨true, true, false, true, 9, 9, 5, 6⟩)
      fun s => s.boards.count) = some 3 ∧ refPattern.DarkZero ∧ 2 < 3 ∧ 3 < 4 := by decide

end Sys2Proof.Tests
end

section
/-! PROOFS of the statements of spec/00_scope.md. First what one step and one command can do, each said once; then what
a DISPLAY shows; then the statements. -/

namespace Sys2Proof.Proofs.Scope

open Sys2Proof.Machine Sys2Proof.Laws

/-! ## The step -/

theorem step_of_port_nil {s : State} (hp : s.port = []) : step s = .next s := by
  simp [step, State.fetch, hp, idle]

theorem step_of_command {s : State} {w : CmdWord} {rest : List CmdWord} {i : Instr} (hp : s.port = w :: rest)
    (hw : decode w = .command i) : step s = exec i { s with port := rest } := by
  simp [step, State.fetch, hp, hw]

theorem step_of_reserved {s : State} {w : CmdWord} {rest : List CmdWord} {op : BitVec 4} (hp : s.port = w :: rest)
    (hw : decode w = .reserved op) : step s = .next { s with port := rest } := by
  simp [step, State.fetch, hp, hw, execReserved]

/-- All that a step can do: nothing when no word waits; else it takes the word, and a reserved one does nothing more
while a command runs on what remains (R68, R135). -/
theorem step_cases {s t : State} (h : step s = .next t) :
    (s.port = [] ∧ t = s) ∨
    ∃ w rest, s.port = w :: rest ∧
      ((∃ op, decode w = .reserved op ∧ t = { s with port := rest }) ∨
       (∃ i, decode w = .command i ∧ exec i { s with port := rest } = .next t)) := by
  cases hp : s.port with
  | nil =>
    rw [step_of_port_nil hp] at h
    cases h
    exact .inl ⟨rfl, rfl⟩
  | cons w rest =>
    refine .inr ⟨w, rest, rfl, ?_⟩
    cases hw : decode w with
    | reserved op =>
      rw [step_of_reserved hp hw] at h
      cases h
      exact .inl ⟨op, rfl, rfl⟩
    | command i =>
      rw [step_of_command hp hw] at h
      exact .inr ⟨i, rfl, h⟩

/-! ## One command -/

/-- An encoder command completes, and the buffer alone changes (R73). -/
theorem exec_of_writesBuf {i : Instr} (hi : i.writesBuf = true) (s : State) :
    ∃ m, exec i s = .next { s with buf := m } := by
  cases i with
  | setnum number mask => exact ⟨_, rfl⟩
  | settext c0 c1 c2 c3 => exact ⟨_, rfl⟩
  | clear fill => exact ⟨_, congrArg Host.Outcome.next (fillUnits_eq _ _ s)⟩
  | putunit index word => exact ⟨_, rfl⟩
  | display | shiftb | sethv | setbrt | setind => simp [Instr.writesBuf] at hi

/-- A power command completes, and its registers alone change (R110). -/
theorem exec_of_isPower {i : Instr} (hi : i.isPower = true) (s : State) :
    ∃ hv brt ind, exec i s = .next { s with hv := hv, brt := brt, ind := ind } := by
  cases i with
  | sethv on => exact ⟨on, s.brt, s.ind, rfl⟩
  | setbrt level => exact ⟨s.hv, level, s.ind, rfl⟩
  | setind level => exact ⟨s.hv, s.brt, level, rfl⟩
  | setnum | settext | clear | putunit | display | shiftb => simp [Instr.isPower] at hi

/-- A command of neither family is a transmission: it completes, and it does what its events do (R93, R96). -/
theorem exec_of_transmits {i : Instr} (hb : i.writesBuf = false) (hp : i.isPower = false) (s : State) :
    exec i s = .next (State.emitAll ((commandTicks s i).map Tick.event) s) := by
  cases i with
  | display => rw [exec_display, transmit_eq_emitAll, commandTicks]
  | shiftb order byte => rw [exec_shiftb, transmit_eq_emitAll, commandTicks]
  | setnum | settext | clear | putunit => simp [Instr.writesBuf] at hb
  | sethv | setbrt | setind => simp [Instr.isPower] at hp

/-- All that a command can do: write the buffer, set the power registers, or send events. -/
theorem exec_cases {i : Instr} {s t : State} (h : exec i s = .next t) :
    (∃ m, t = { s with buf := m }) ∨ (∃ hv brt ind, t = { s with hv := hv, brt := brt, ind := ind }) ∨
    (∃ es, t = State.emitAll es s) := by
  cases hb : i.writesBuf with
  | true =>
    obtain ⟨m, hm⟩ := exec_of_writesBuf hb s
    rw [hm] at h
    cases h
    exact .inl ⟨m, rfl⟩
  | false =>
    cases hp : i.isPower with
    | true =>
      obtain ⟨hv, brt, ind, hs⟩ := exec_of_isPower hp s
      rw [hs] at h
      cases h
      exact .inr (.inl ⟨hv, brt, ind, rfl⟩)
    | false =>
      rw [exec_of_transmits hb hp] at h
      cases h
      exact .inr (.inr ⟨_, rfl⟩)

/-- No command changes the configuration, and none takes a word from the port. -/
theorem exec_keeps_configuration {i : Instr} {s t : State} (h : exec i s = .next t) :
    t.boards = s.boards ∧ t.pins = s.pins ∧ t.pattern = s.pattern ∧ t.platform = s.platform ∧ t.port = s.port := by
  obtain ⟨m, rfl⟩ | ⟨hv, brt, ind, rfl⟩ | ⟨es, rfl⟩ := exec_cases h
  · exact ⟨rfl, rfl, rfl, rfl, rfl⟩
  · exact ⟨rfl, rfl, rfl, rfl, rfl⟩
  · rw [emitAll_frame]
    exact ⟨rfl, rfl, rfl, rfl, rfl⟩

/-! ## Encoder commands in a row -/

/-- Encoder commands one after another complete, and the buffer alone changes. -/
theorem runCommands_of_writesBuf {is : List Instr} (his : ∀ i ∈ is, i.writesBuf = true) (s : State) :
    ∃ m, runCommands is s = .next { s with buf := m } := by
  induction is generalizing s with
  | nil => exact ⟨s.buf, rfl⟩
  | cons i is ih =>
    obtain ⟨m, hm⟩ := exec_of_writesBuf (his i (by simp)) s
    obtain ⟨m', hm'⟩ := ih (fun j hj => his j (List.mem_cons_of_mem i hj)) { s with buf := m }
    exact ⟨m', by rw [runCommands, hm]; exact hm'⟩

/-! ## What a DISPLAY shows -/

/-- Bit by bit, the units in order: what the chain holds once a buffer has been sent (R95, R101). -/
def unitBits (s : State) : List Bool :=
  (List.range (40 * s.boards.count)).map fun k => (s.unit (k / 40)).getLsbD (k % 40)

/-- The bits a DISPLAY sends are those of the units in order (R95). -/
theorem serialBits_eq_unitBits (s : State) : serialBits s.bufLength s.buf = unitBits s := by
  rw [serialBits, unitBits, State.bufLength, ← Nat.mul_assoc]
  exact List.map_congr_left fun k _ => serialBit_eq_unit s.buf k

/-- DISPLAY completes and makes the units visible, whatever a chain of the right length held before (R101). -/
theorem display_shows_unitBits {s : State} (hsr : s.sr.length = s.chainLength) :
    ∃ t, exec .display s = .next t ∧ t.vis = unitBits s := by
  have hpos : 0 < s.bufLength := Nat.mul_pos (by decide) s.boards.one_le
  have hfull : s.sr.length = (unitBits s).length := by
    rw [hsr, unitBits, List.length_map, List.length_range, State.chainLength]
  refine ⟨_, exec_display s, ?_⟩
  rw [transmit_display hpos]
  show shiftIn s.sr (serialBits s.bufLength s.buf) = unitBits s
  rw [serialBits_eq_unitBits, shiftIn_full hfull]

/-- A run of ten indices inside a range. -/
theorem take_drop_range {n k : Nat} (h : k + 10 ≤ n) :
    ((List.range n).drop k).take 10 = (List.range 10).map (k + ·) := by
  obtain ⟨r, rfl⟩ := Nat.exists_eq_add_of_le h
  rw [Nat.add_assoc, List.range_add, List.drop_left' List.length_range, List.range_add, List.map_append,
    List.take_left' (by simp)]

/-- Where the units are visible, field `q` of board `b` shows field `q` of unit `b` (R101). -/
theorem visPattern_of_unitBits {s t : State} (hvis : t.vis = unitBits s) {b q : Nat} (hb : b < s.boards.count)
    (hq : q < 4) : t.visPattern b q = (List.range 10).map fun i => (s.unit b).getLsbD (10 * q + i) := by
  rw [State.visPattern, hvis, unitBits, ← List.map_drop, ← List.map_take, take_drop_range (by omega), List.map_map]
  refine List.map_congr_left fun i hi => ?_
  have : i < 10 := List.mem_range.1 hi
  simp only [Function.comp, show (40 * b + 10 * q + i) / 40 = b by omega,
    show (40 * b + 10 * q + i) % 40 = 10 * q + i by omega]

/-! ## The fields of a packed unit -/

/-- The pattern at digit field `q`, counted from the units (R53). -/
def fieldAt (p : Positions Pattern) : Nat → Pattern
  | 0 => p.units
  | 1 => p.tens
  | 2 => p.hundreds
  | _ => p.thousands

/-- Field `q` of a packed unit is the pattern packed there (R53, R54). -/
theorem field_packPatterns (p : Positions Pattern) {q : Nat} (hq : q < 4) :
    ((List.range 10).map fun i => (packPatterns p).getLsbD (10 * q + i)) =
      (List.range 10).map (fieldAt p q).getLsbD := by
  refine List.map_congr_left fun i hi => ?_
  have hi : i < 10 := List.mem_range.1 hi
  rw [getLsbD_packPatterns]
  match q, hq with
  | 0, _ => rw [if_pos (by omega), Nat.mul_zero, Nat.zero_add, fieldAt]
  | 1, _ => rw [if_neg (by omega), if_pos (by omega), Nat.add_sub_cancel_left, fieldAt]
  | 2, _ => rw [if_neg (by omega), if_neg (by omega), if_pos (by omega), Nat.add_sub_cancel_left, fieldAt]
  | 3, _ =>
    rw [if_neg (by omega), if_neg (by omega), if_neg (by omega), Nat.add_sub_cancel_left]
    rfl

/-- After SETNUM, unit 0 is the packed digits (R76). -/
theorem unit_encodeNumber (number : Int) (mask : BitVec 4) (s : State) :
    (encodeNumber number mask s).unit 0 = pack s.pattern (digits number mask) :=
  readUnit_writeUnit_same _ _ _

/-! ## The statements -/

/-- Settles O7: the two facts of the step, its fetch and its decode, select the branch. -/
theorem stepRunsTheDecodedCommand : Obligations.StepRunsTheDecodedCommand := by
  unfold Obligations.StepRunsTheDecodedCommand
  intro s w rest i hp hw
  exact step_of_command hp hw

/-- Settles O46, by what a step can do and the frame of every command. -/
theorem configurationNeverChanges : Obligations.ConfigurationNeverChanges := by
  unfold Obligations.ConfigurationNeverChanges
  intro s t h
  obtain ⟨hp, rfl⟩ | ⟨w, rest, hp, ⟨op, -, rfl⟩ | ⟨i, -, hx⟩⟩ := step_cases h
  · exact ⟨rfl, rfl, rfl, rfl, by rw [hp]; rfl⟩
  · exact ⟨rfl, rfl, rfl, rfl, by rw [hp]; rfl⟩
  · obtain ⟨hboards, hpins, hpattern, hplatform, hport⟩ := exec_keeps_configuration hx
    exact ⟨hboards, hpins, hpattern, hplatform, by rw [hport, hp]; rfl⟩

/-- Settles O47: a transmission is its events; every other command adds none and moves nothing of the bus. -/
theorem theTraceAccountsForTheBus : Obligations.TheTraceAccountsForTheBus := by
  unfold Obligations.TheTraceAccountsForTheBus
  intro i s t h
  obtain ⟨m, rfl⟩ | ⟨hv, brt, ind, rfl⟩ | ⟨es, rfl⟩ := exec_cases h
  · exact ⟨[], by simp, rfl, rfl, rfl, rfl, rfl⟩
  · exact ⟨[], by simp, rfl, rfl, rfl, rfl, rfl⟩
  · exact ⟨es, emitAll_trace es s, rfl, rfl, rfl, rfl, rfl⟩

/-- Settles O48: the encoder commands keep the chain's length, so the DISPLAY shows the units they left. -/
theorem encodingDoesNotDisplay : Obligations.EncodingDoesNotDisplay := by
  unfold Obligations.EncodingDoesNotDisplay
  intro is s hinv his
  obtain ⟨m, hrun⟩ := runCommands_of_writesBuf his s
  obtain ⟨u, hu, hvis⟩ := display_shows_unitBits (s := { s with buf := m }) hinv.sr_length
  exact ⟨_, u, hrun, rfl, hu, hvis⟩

/-- Settles O49: SETNUM packs the digits into unit 0, DISPLAY shows each field of it. -/
theorem numberIsShownAfterDisplay : Obligations.NumberIsShownAfterDisplay := by
  unfold Obligations.NumberIsShownAfterDisplay
  intro s number mask hinv
  obtain ⟨t, ht, hvis⟩ := display_shows_unitBits (s := encodeNumber number mask s) hinv.sr_length
  have hrun : runCommands [.setnum number mask, .display] s = .next t := by
    simp only [runCommands, exec_setnum, ht]
  have hfield : ∀ q, q < 4 → t.visPattern 0 q =
      (List.range 10).map (fieldAt (lookup s.pattern (digits number mask)) q).getLsbD := by
    intro q hq
    rw [visPattern_of_unitBits hvis s.boards.one_le hq, unit_encodeNumber, pack, field_packPatterns _ hq]
  exact ⟨t, hrun, hfield 3 (by decide), hfield 2 (by decide), hfield 1 (by decide), hfield 0 (by decide)⟩

end Sys2Proof.Proofs.Scope
end

section
/-! PROOFS of the statements of spec/10_state.md. First what each command can change, said once for all nine; then the
parts of the invariant, one lemma per operation; then construction; then the statements. -/

namespace Sys2Proof.Proofs.Registers

open Sys2Proof.Machine Sys2Proof.Laws Sys2Proof.Proofs.Scope

/-! ## What events and filled units leave unchanged -/

section frame
variable (es : List Event) (s : State)
@[simp] theorem emitAll_buf : (State.emitAll es s).buf = s.buf := by rw [emitAll_frame]
@[simp] theorem emitAll_hv : (State.emitAll es s).hv = s.hv := by rw [emitAll_frame]
@[simp] theorem emitAll_brt : (State.emitAll es s).brt = s.brt := by rw [emitAll_frame]
@[simp] theorem emitAll_ind : (State.emitAll es s).ind = s.ind := by rw [emitAll_frame]
end frame

/-- Data and clock events alone move neither the latch line nor the visible outputs (R96, R100). -/
theorem emitAll_bits_keeps_latch_vis (bs : List Bool) (s : State) :
    (State.emitAll (bs.flatMap bitEvents) s).latch = s.latch ∧
    (State.emitAll (bs.flatMap bitEvents) s).vis = s.vis := by
  rw [emitAll_bits]
  exact ⟨rfl, rfl⟩

/-! ## What each command can do -/

/-- An encoder command completes by filling units of the buffer that exist, with one value (R35, R73). -/
theorem exec_fills_of_writesBuf {i : Instr} (hi : i.writesBuf = true) (s : State) :
    ∃ v us, (∀ u ∈ us, u < s.boards.count) ∧ exec i s = .next (State.fillUnits v us s) := by
  have hpos : 0 < s.boards.count := s.boards.one_le
  cases i with
  | setnum number mask => exact ⟨_, [0], by simpa using hpos, rfl⟩
  | settext c0 c1 c2 c3 => exact ⟨_, [0], by simpa using hpos, rfl⟩
  | clear fill => exact ⟨_, List.range s.boards.count, fun u hu => List.mem_range.1 hu, rfl⟩
  | putunit index word => exact ⟨_, [wrapIndex s.boards index], by simpa using wrapIndex_lt s.boards index, rfl⟩
  | display | shiftb | sethv | setbrt | setind => simp [Instr.writesBuf] at hi

theorem exec_display_events (s : State) : exec .display s =
    .next (State.emitAll latchEvents (State.emitAll ((serialBits s.bufLength s.buf).flatMap bitEvents) s)) := by
  rw [exec_display, transmit_eq_emitAll, events_displayTicks, emitAll_append]

theorem exec_shiftb_events (order : BitVec 4) (v : Byte) (s : State) : exec (.shiftb order v) s =
    .next (State.emitAll ((byteBits order v).flatMap bitEvents) s) := by
  rw [exec_shiftb, transmit_eq_emitAll, events_shiftByte]

/-- All that a command can do, with the command that does it: an encoder command fills units, DISPLAY sends bits and the
latch pulse, SHIFTB sends bits, and each power command sets its own register. -/
theorem exec_effect {i : Instr} {s t : State} (h : exec i s = .next t) :
    (i.writesBuf = true ∧ ∃ v us, (∀ u ∈ us, u < s.boards.count) ∧ t = State.fillUnits v us s) ∨
    (i = .display ∧ ∃ bs : List Bool, t = State.emitAll latchEvents (State.emitAll (bs.flatMap bitEvents) s)) ∨
    (∃ order v, i = .shiftb order v ∧ ∃ bs : List Bool, t = State.emitAll (bs.flatMap bitEvents) s) ∨
    (∃ on, i = .sethv on ∧ t = { s with hv := on }) ∨
    (∃ level, i = .setbrt level ∧ t = { s with brt := level }) ∨
    (∃ level, i = .setind level ∧ t = { s with ind := level }) := by
  cases hw : i.writesBuf with
  | true =>
    obtain ⟨v, us, hus, hx⟩ := exec_fills_of_writesBuf hw s
    rw [hx] at h
    cases h
    exact .inl ⟨rfl, v, us, hus, rfl⟩
  | false =>
    refine .inr ?_
    cases i with
    | display =>
      rw [exec_display_events] at h
      cases h
      exact .inl ⟨rfl, _, rfl⟩
    | shiftb order v =>
      rw [exec_shiftb_events] at h
      cases h
      exact .inr (.inl ⟨order, v, rfl, _, rfl⟩)
    | sethv on =>
      cases h
      exact .inr (.inr (.inl ⟨on, rfl, rfl⟩))
    | setbrt level =>
      cases h
      exact .inr (.inr (.inr (.inl ⟨level, rfl, rfl⟩)))
    | setind level =>
      cases h
      exact .inr (.inr (.inr (.inr ⟨level, rfl, rfl⟩)))
    | setnum | settext | clear | putunit => simp [Instr.writesBuf] at hw

/-! ## The invariant, operation by operation -/

/-- The invariant speaks of neither the power registers nor the port. -/
theorem inv_of_power_port {s : State} (h : s.Inv) (hv : Bool) (brt ind : BitVec 8) (port : List CmdWord) :
    State.Inv { s with hv := hv, brt := brt, ind := ind, port := port } :=
  { h with }

/-- Writing a unit that exists keeps the buffer canonical and within its length (R14, R44). -/
theorem writeUnit_keeps_inv {s : State} (h : s.Inv) {u : Nat} (hu : u < s.boards.count) (v : UnitValue) :
    (s.writeUnit u v).Inv :=
  { h with
    buf_wf := wf_writeUnit h.buf_wf u v
    buf_below := below_writeUnit h.buf_below hu v }

theorem fillUnits_keeps_inv (v : UnitValue) {us : List Nat} {s : State} (h : s.Inv)
    (hus : ∀ u ∈ us, u < s.boards.count) : (State.fillUnits v us s).Inv := by
  induction us generalizing s with
  | nil => exact h
  | cons u us ih =>
    exact ih (writeUnit_keeps_inv h (hus u (by simp)) v) fun w hw => hus w (List.mem_cons_of_mem u hw)

/-- One bit sent: the chain drops a bit and gains one, the clock line ends high (R91, R99). -/
theorem bitEvents_keeps_inv (b : Bool) {s : State} (h : s.Inv) : (State.emitAll (bitEvents b) s).Inv := by
  have hlines := emitAll_lines_hold (bitEvents b) h.lines_hold
  have hpos : 0 < s.boards.count := s.boards.one_le
  have hsr : (s.sr.drop 1 ++ [b]).length = s.chainLength := by
    have := h.sr_length
    simp only [List.length_append, List.length_drop, List.length_singleton, State.chainLength] at *
    omega
  rw [emitAll_bitEvents] at hlines ⊢
  exact { h with
    sr_length := hsr
    lines_hold := hlines
    clk_high := by simp [lastWrite, bitEvents]
    latch_high := by simpa [lastWrite_append, lastWrite, bitEvents] using h.latch_high }

theorem bits_keep_inv (bs : List Bool) {s : State} (h : s.Inv) : (State.emitAll (bs.flatMap bitEvents) s).Inv := by
  induction bs generalizing s with
  | nil => exact h
  | cons b bs ih =>
    rw [List.flatMap_cons, emitAll_append]
    exact ih (bitEvents_keeps_inv b h)

/-- The latch pulse: the visible outputs take the chain's length, the latch line ends high (R93, R100). -/
theorem latchEvents_keeps_inv {s : State} (h : s.Inv) : (State.emitAll latchEvents s).Inv := by
  have hlines := emitAll_lines_hold latchEvents h.lines_hold
  rw [emitAll_latchEvents] at hlines ⊢
  exact { h with
    vis_length := h.sr_length
    lines_hold := hlines
    clk_high := by simpa [lastWrite_append, lastWrite, latchEvents] using h.clk_high
    latch_high := by simp [lastWrite, latchEvents] }

theorem exec_keeps_inv {i : Instr} {s t : State} (hinv : s.Inv) (h : exec i s = .next t) : t.Inv := by
  obtain ⟨-, v, us, hus, rfl⟩ | ⟨-, bs, rfl⟩ | ⟨-, -, -, bs, rfl⟩ | ⟨on, -, rfl⟩ | ⟨level, -, rfl⟩ | ⟨level, -, rfl⟩ :=
    exec_effect h
  · exact fillUnits_keeps_inv v hinv hus
  · exact latchEvents_keeps_inv (bits_keep_inv bs hinv)
  · exact bits_keep_inv bs hinv
  · exact inv_of_power_port hinv on s.brt s.ind s.port
  · exact inv_of_power_port hinv s.hv level s.ind s.port
  · exact inv_of_power_port hinv s.hv s.brt level s.port

/-! ## Construction -/

@[simp] theorem length_bitsOf (n v : Nat) : (bitsOf n v).length = n := by simp [bitsOf]

theorem getElem?_bitsOf {n k : Nat} (v : Nat) (hk : k < n) : (bitsOf n v)[k]? = some (v.testBit k) := by
  simp [bitsOf, List.getElem?_range hk]

/-- The state a legal construction gives. -/
def constructed (b : BoardCount) (pins : Pins) (tbl : PatternTable) (p : Platform) (d : Draw) : State where
  boards := b
  pins := pins
  pattern := tbl
  platform := p
  buf := []
  data := d.data
  clk := d.clk
  latch := d.latch
  hv := d.hv
  brt := d.brt
  ind := d.ind
  seq := none
  sr := bitsOf (40 * b.count) d.sr
  vis := bitsOf (40 * b.count) d.vis
  trace := []
  port := []

theorem construct_eq_next_iff {n : Nat} {pins : Pins} {tbl : PatternTable} {p : Platform} {d : Draw} {t : State} :
    State.construct n pins tbl p d = .next t ↔ ∃ b : BoardCount, b.count = n ∧ t = constructed b pins tbl p d := by
  constructor
  · intro h
    unfold State.construct at h
    split at h
    · next hn =>
      cases h
      exact ⟨⟨n, hn.1, hn.2⟩, rfl, rfl⟩
    · cases h
  · rintro ⟨b, rfl, rfl⟩
    exact dif_pos ⟨b.one_le, b.le_255⟩

/-- With a zero buffer, no walk and nothing written to a line yet, the chain's length is all the invariant asks. -/
theorem inv_of_untouched {s : State} (hbuf : s.buf = []) (hseq : s.seq = none) (htrace : s.trace = [])
    (hsr : s.sr.length = s.chainLength) (hvis : s.vis.length = s.chainLength) : s.Inv where
  buf_wf := by rw [hbuf]; rfl
  buf_below := by rw [hbuf]; rfl
  sr_length := hsr
  vis_length := hvis
  no_walk := hseq
  lines_hold := by simp [htrace, lastWrite]
  clk_high := by simp [htrace, lastWrite]
  latch_high := by simp [htrace, lastWrite]

/-! ## The statements -/

/-- Settles O54: taking a word leaves what the invariant speaks of, and every command keeps it. -/
theorem stepKeepsTheInvariant : Obligations.StepKeepsTheInvariant := by
  unfold Obligations.StepKeepsTheInvariant
  intro s t hinv h
  have htaken : ∀ rest, State.Inv { s with port := rest } := inv_of_power_port hinv s.hv s.brt s.ind
  obtain ⟨-, rfl⟩ | ⟨w, rest, -, ⟨op, -, rfl⟩ | ⟨i, -, hx⟩⟩ := step_cases h
  · exact hinv
  · exact htaken rest
  · exact exec_keeps_inv (htaken rest) hx

/-- Settles O43, by the effect of each command: filling units is the only one that reaches the buffer. -/
theorem onlyEncoderCommandsWriteTheBuffer : Obligations.OnlyEncoderCommandsWriteTheBuffer := by
  unfold Obligations.OnlyEncoderCommandsWriteTheBuffer
  intro i s t h
  obtain ⟨hw, v, us, -, rfl⟩ | ⟨rfl, bs, rfl⟩ | ⟨order, v, rfl, bs, rfl⟩ | ⟨on, rfl, rfl⟩ | ⟨level, rfl, rfl⟩ |
    ⟨level, rfl, rfl⟩ := exec_effect h
  · exact ⟨fun _ => fillUnits_eq v us s, fun hn => by simp [hw] at hn⟩
  · exact ⟨nofun, fun _ => by simp⟩
  · exact ⟨nofun, fun _ => by simp⟩
  · exact ⟨nofun, fun _ => rfl⟩
  · exact ⟨nofun, fun _ => rfl⟩
  · exact ⟨nofun, fun _ => rfl⟩

/-- Settles O44, by the effect of each command: only the latch pulse reaches `LATCH` and `VIS`, only events the rest. -/
theorem onlyTheTransmitterDrivesTheBus : Obligations.OnlyTheTransmitterDrivesTheBus := by
  unfold Obligations.OnlyTheTransmitterDrivesTheBus
  intro i s t h
  obtain ⟨-, v, us, -, rfl⟩ | ⟨rfl, bs, rfl⟩ | ⟨order, v, rfl, bs, rfl⟩ | ⟨on, rfl, rfl⟩ | ⟨level, rfl, rfl⟩ |
    ⟨level, rfl, rfl⟩ := exec_effect h
  · rw [fillUnits_eq]
    exact ⟨fun _ => ⟨rfl, rfl⟩, fun _ _ => ⟨rfl, rfl, rfl, rfl⟩⟩
  · exact ⟨fun hne => absurd rfl hne, fun hne => absurd rfl hne⟩
  · exact ⟨fun _ => emitAll_bits_keeps_latch_vis bs s, fun _ hne => absurd rfl (hne order v)⟩
  · exact ⟨fun _ => ⟨rfl, rfl⟩, fun _ _ => ⟨rfl, rfl, rfl, rfl⟩⟩
  · exact ⟨fun _ => ⟨rfl, rfl⟩, fun _ _ => ⟨rfl, rfl, rfl, rfl⟩⟩
  · exact ⟨fun _ => ⟨rfl, rfl⟩, fun _ _ => ⟨rfl, rfl, rfl, rfl⟩⟩

/-- Settles O45, by the effect of each command: neither units nor events reach a power register, and each power command
sets its own. -/
theorem eachPowerRegisterHasOneWriter : Obligations.EachPowerRegisterHasOneWriter := by
  unfold Obligations.EachPowerRegisterHasOneWriter
  intro i s t h
  obtain ⟨-, v, us, -, rfl⟩ | ⟨rfl, bs, rfl⟩ | ⟨order, v, rfl, bs, rfl⟩ | ⟨on, rfl, rfl⟩ | ⟨level, rfl, rfl⟩ |
    ⟨level, rfl, rfl⟩ := exec_effect h
  · rw [fillUnits_eq]
    exact ⟨fun _ => rfl, fun _ => rfl, fun _ => rfl⟩
  · simp
  · simp
  · exact ⟨fun hne => absurd rfl (hne on), fun _ => rfl, fun _ => rfl⟩
  · exact ⟨fun _ => rfl, fun hne => absurd rfl (hne level), fun _ => rfl⟩
  · exact ⟨fun _ => rfl, fun _ => rfl, fun hne => absurd rfl (hne level)⟩

/-- Settles O50: each field of the state a legal construction gives. -/
theorem constructionGivesTheResetState : Obligations.ConstructionGivesTheResetState := by
  unfold Obligations.ConstructionGivesTheResetState
  intro n pins tbl p d h1 h255
  exact ⟨constructed ⟨n, h1, h255⟩ pins tbl p d, construct_eq_next_iff.2 ⟨_, rfl, rfl⟩, rfl, rfl, rfl, rfl,
    fun _ => rfl, rfl, rfl, rfl, rfl, rfl, rfl, rfl, rfl, rfl, length_bitsOf _ _, length_bitsOf _ _,
    fun _ hk => ⟨getElem?_bitsOf _ hk, getElem?_bitsOf _ hk⟩⟩

/-- Settles O53: nothing has been written yet, and the drawn chain and outputs have the chain's length. -/
theorem constructionMeetsTheInvariant : Obligations.ConstructionMeetsTheInvariant := by
  unfold Obligations.ConstructionMeetsTheInvariant
  constructor
  · intro n pins tbl p d t h
    obtain ⟨b, -, rfl⟩ := construct_eq_next_iff.1 h
    exact inv_of_untouched rfl rfl rfl (length_bitsOf _ _) (length_bitsOf _ _)
  · exact inv_of_untouched rfl rfl rfl List.length_replicate List.length_replicate

end Sys2Proof.Proofs.Registers
end

section
/-! PROOFS of the statement of spec/20_memory.md. A command survives the encoder and the decoder; no command looks at the
port; so each step of an encoded program is one command, and the rest of the program still waits at the port. -/

namespace Sys2Proof.Proofs.Port

open Sys2Proof.Machine Sys2Proof.Laws Sys2Proof.Proofs.Scope

/-! ## The decoder reads back what the encoder wrote -/

/-- The fields of every command's word are the command's own (R65). -/
theorem fields_encode (i : Instr) :
    opField (encode i) = i.opcode ∧ aField (encode i) = i.operandA ∧ pField (encode i) = i.payload :=
  Fields.fields_append _ _ _

/-- A well-formed command is what its word decodes to, one format after another (R66, R69). -/
theorem decode_encode {i : Instr} (hi : i.wellFormed = true) : decode (encode i) = .command i := by
  obtain ⟨hop, ha, hp⟩ := fields_encode i
  cases i with
  | setnum number mask =>
    rw [decode_op1 hop, ha, hp, payload_setnum number mask hi]
    rfl
  | settext c0 c1 c2 c3 =>
    obtain ⟨h0, h1, h2, h3⟩ := payload_settext c0 c1 c2 c3
    rw [decode_op2 hop, hp, h0, h1, h2, h3]
  | clear fill => rw [decode_op3 hop, hp, payload_clear]
  | putunit index word =>
    obtain ⟨hindex, hword⟩ := payload_putunit index word
    rw [decode_op4 hop, hp, hindex, hword]
  | display => exact decode_op5 hop
  | shiftb order byte =>
    rw [decode_op6 hop, ha, hp, payload_shiftb]
    rfl
  | sethv on => rw [decode_op8 hop, hp, payload_sethv]
  | setbrt level => rw [decode_op9 hop, hp, payload_setbrt]
  | setind level => rw [decode_opA hop, hp, payload_setind]

/-! ## No command looks at the port -/

section port
variable (s : State) (port : List CmdWord)

theorem fillUnits_withPort (v : UnitValue) (us : List Nat) :
    State.fillUnits v us { s with port := port } = { State.fillUnits v us s with port := port } := by
  induction us generalizing s with
  | nil => rfl
  | cons u us ih => exact ih (s.writeUnit u v)

theorem emitAll_withPort (es : List Event) :
    State.emitAll es { s with port := port } = { State.emitAll es s with port := port } := by
  induction es generalizing s with
  | nil => rfl
  | cons e es ih => exact ih (s.emit e)

theorem transmit_withPort (ts : List Tick) :
    State.transmit { s with port := port } ts = { s.transmit ts with port := port } := by
  rw [transmit_eq_emitAll, transmit_eq_emitAll, emitAll_withPort]

end port

/-- A command completes in one state, whatever waits at the port, and leaves there what waits. -/
theorem exec_withPort (i : Instr) (s : State) :
    ∃ t : State, ∀ port, exec i { s with port := port } = .next { t with port := port } := by
  cases i with
  | setnum number mask => exact ⟨encodeNumber number mask s, fun _ => rfl⟩
  | settext c0 c1 c2 c3 => exact ⟨encodeNumber (textValue c0 c1 c2 c3) 0b1111 s, fun _ => rfl⟩
  | clear fill =>
    exact ⟨State.fillUnits (rawExpand s.platform.rawTable fill) (List.range s.boards.count) s,
      fun port => congrArg Host.Outcome.next (fillUnits_withPort s port _ _)⟩
  | putunit index word =>
    exact ⟨s.writeUnit (wrapIndex s.boards index) (rawExpand s.platform.rawTable word), fun _ => rfl⟩
  | display =>
    exact ⟨s.transmit (displayTicks s.bufLength s.buf),
      fun port => congrArg Host.Outcome.next (transmit_withPort s port _)⟩
  | shiftb order byte =>
    exact ⟨s.transmit (shiftByte 0 order byte), fun port => congrArg Host.Outcome.next (transmit_withPort s port _)⟩
  | sethv on => exact ⟨{ s with hv := on }, fun _ => rfl⟩
  | setbrt level => exact ⟨{ s with brt := level }, fun _ => rfl⟩
  | setind level => exact ⟨{ s with ind := level }, fun _ => rfl⟩

/-! ## Stepping over encoded commands -/

/-- The step over a command's own word is the command (R9, R69). -/
theorem step_of_encode {i : Instr} (hi : i.wellFormed = true) (s : State) (rest : List CmdWord) :
    step { s with port := encode i :: rest } = exec i { s with port := rest } :=
  step_of_command rfl (decode_encode hi)

/-- A run goes on from where its first step leads. -/
theorem run_succ_of_step {M : Host.Core} {s t : M.State} (h : M.step s = .next t) (k : Nat) :
    M.run (k + 1) s = M.run k t := by
  rw [Host.Core.run, h]

/-- Settles O10, by induction on the commands: the first step is the first command, and the commands that are left wait
at the port of the state it leads to. -/
theorem steppingRunsTheCommandsInOrder : Obligations.SteppingRunsTheCommandsInOrder := by
  unfold Obligations.SteppingRunsTheCommandsInOrder
  intro is rest s his
  induction is generalizing s with
  | nil => rfl
  | cons i is ih =>
    obtain ⟨t, hexec⟩ := exec_withPort i s
    have hstep : Sys2Proof.core.step { s with port := encode i :: (is.map encode ++ rest) } =
        .next { t with port := is.map encode ++ rest } :=
      (step_of_encode (his i (by simp)) s _).trans (hexec _)
    refine (run_succ_of_step hstep is.length).trans ?_
    rw [runCommands, hexec]
    exact ih t fun j hj => his j (List.mem_cons_of_mem i hj)

end Sys2Proof.Proofs.Port
end

section
/-! PROOFS of the statements of spec/30_encoding.md. First a command word as its three fields, and what each format
keeps of them; then the round trip word to command to word, from which the rest about the encoding follows; then the
packed unit; then the statements. -/

namespace Sys2Proof.Proofs.Encoding

open Sys2Proof.Machine Sys2Proof.Laws Sys2Proof.Proofs.Scope Sys2Proof.Proofs.Port

/-! ## A command word is its three fields -/

theorem append_fields (w : CmdWord) : opField w ++ aField w ++ pField w = w := by
  have hhigh : opField w ++ aField w = w.extractLsb' 32 8 :=
    BitVec.extractLsb'_append_extractLsb'_eq_extractLsb' rfl
  rw [hhigh]
  exact BitVec.extractLsb'_append_extractLsb'

/-- The fields of a masked word are the masked fields. -/
theorem fields_and (w v : CmdWord) : opField (w &&& v) = opField w &&& opField v ∧
    aField (w &&& v) = aField w &&& aField v ∧ pField (w &&& v) = pField w &&& pField v :=
  ⟨BitVec.extractLsb'_and, BitVec.extractLsb'_and, BitVec.extractLsb'_and⟩

/-- Every format names all four bits of the opcode (R65). -/
theorem opField_namedBits (op : BitVec 4) : opField (namedBits op) = BitVec.allOnes 4 := by
  revert op
  decide

/-- Clearing the reserved bits keeps the opcode. -/
theorem opField_and_namedBits (w : CmdWord) (op : BitVec 4) : opField (w &&& namedBits op) = opField w := by
  rw [(fields_and w _).1, opField_namedBits, BitVec.and_allOnes]

/-- A command's word is a given word with its reserved bits cleared, when the opcode is the word's own and the two
operand fields are the masked ones. -/
theorem encode_eq_and_namedBits {i : Instr} {w : CmdWord} {op : BitVec 4} (hw : opField w = op) (hop : i.opcode = op)
    (ha : i.operandA = aField w &&& aField (namedBits op)) (hp : i.payload = pField w &&& pField (namedBits op)) :
    encode i = w &&& namedBits (opField w) := by
  obtain ⟨-, hfa, hfp⟩ := fields_and w (namedBits op)
  rw [hw, ← append_fields (w &&& namedBits op), opField_and_namedBits, hfa, hfp, ← ha, ← hp, hw, ← hop, encode]

/-! ## The payload of each format (R66) -/

/-- The low part of a value with zeros above it is the value with its high part masked away. -/
theorem zero_append_extract_low (m n : Nat) (p : BitVec (m + n)) :
    (0#m) ++ p.extractLsb' 0 n = p &&& (BitVec.allOnes n).setWidth (m + n) := by
  rw [BitVec.and_setWidth_allOnes, BitVec.setWidth_eq_extractLsb' (by omega)]

theorem payload_settext_extract (p : BitVec 32) :
    (Instr.settext (p.extractLsb' 24 8) (p.extractLsb' 16 8) (p.extractLsb' 8 8) (p.extractLsb' 0 8)).payload = p := by
  have h2 : p.extractLsb' 24 8 ++ p.extractLsb' 16 8 = p.extractLsb' 16 16 :=
    BitVec.extractLsb'_append_extractLsb'_eq_extractLsb' rfl
  have h3 : p.extractLsb' 16 16 ++ p.extractLsb' 8 8 = p.extractLsb' 8 24 :=
    BitVec.extractLsb'_append_extractLsb'_eq_extractLsb' rfl
  rw [Instr.payload, h2, h3]
  exact BitVec.extractLsb'_append_extractLsb'

theorem payload_putunit_extract (p : BitVec 32) :
    (Instr.putunit (p.extractLsb' 16 8) (p.extractLsb' 0 16)).payload = p &&& (BitVec.allOnes 24).setWidth 32 := by
  have hjoin : p.extractLsb' 16 8 ++ p.extractLsb' 0 16 = p.extractLsb' 0 24 :=
    BitVec.extractLsb'_append_extractLsb'_eq_extractLsb' rfl
  have hassoc : (0#8) ++ p.extractLsb' 16 8 ++ p.extractLsb' 0 16 =
      (0#8) ++ (p.extractLsb' 16 8 ++ p.extractLsb' 0 16) := BitVec.append_assoc
  rw [Instr.payload, hassoc, hjoin]
  exact zero_append_extract_low 8 24 p

theorem payload_sethv_getLsbD (p : BitVec 32) : (Instr.sethv (p.getLsbD 0)).payload =
    p &&& (BitVec.allOnes 1).setWidth 32 := by
  have hbit : BitVec.ofBool (p.getLsbD 0) = p.extractLsb' 0 1 := by
    apply BitVec.eq_of_getLsbD_eq
    intro j hj
    obtain rfl : j = 0 := by omega
    simp
  rw [Instr.payload, hbit]
  exact zero_append_extract_low 31 1 p

/-! ## Word to command to word -/

/-- A payload read as a signed integer is within the range of R61. -/
theorem numberInRange_toInt (p : BitVec 32) : numberInRange p.toInt = true := by
  have hlo := BitVec.le_toInt p
  have hhi := BitVec.toInt_lt (x := p)
  simp only [numberInRange, Bool.and_eq_true, decide_eq_true_eq]
  omega

/-- What a word decodes to is well formed, and its own word is that word with the reserved bits cleared: one format
after another, as the opcode selects it (R66, R67, R69). -/
theorem encode_of_decode {w : CmdWord} {i : Instr} (h : decode w = .command i) :
    i.wellFormed = true ∧ encode i = w &&& namedBits (opField w) := by
  rcases opField_cases w with hop | hop | hop | hop | hop | hop | hop | hop | hop | hres
  · obtain rfl := Decoded.command.inj ((decode_op1 hop).symm.trans h)
    refine ⟨numberInRange_toInt _, encode_eq_and_namedBits hop rfl BitVec.and_allOnes.symm ?_⟩
    exact BitVec.ofInt_toInt.trans BitVec.and_allOnes.symm
  · obtain rfl := Decoded.command.inj ((decode_op2 hop).symm.trans h)
    refine ⟨rfl, encode_eq_and_namedBits hop rfl BitVec.and_zero.symm ?_⟩
    exact (payload_settext_extract _).trans BitVec.and_allOnes.symm
  · obtain rfl := Decoded.command.inj ((decode_op3 hop).symm.trans h)
    exact ⟨rfl, encode_eq_and_namedBits hop rfl BitVec.and_zero.symm (zero_append_extract_low 16 16 _)⟩
  · obtain rfl := Decoded.command.inj ((decode_op4 hop).symm.trans h)
    exact ⟨rfl, encode_eq_and_namedBits hop rfl BitVec.and_zero.symm (payload_putunit_extract _)⟩
  · obtain rfl := Decoded.command.inj ((decode_op5 hop).symm.trans h)
    exact ⟨rfl, encode_eq_and_namedBits hop rfl BitVec.and_zero.symm BitVec.and_zero.symm⟩
  · obtain rfl := Decoded.command.inj ((decode_op6 hop).symm.trans h)
    exact ⟨rfl, encode_eq_and_namedBits hop rfl BitVec.and_allOnes.symm (zero_append_extract_low 24 8 _)⟩
  · obtain rfl := Decoded.command.inj ((decode_op8 hop).symm.trans h)
    exact ⟨rfl, encode_eq_and_namedBits hop rfl BitVec.and_zero.symm (payload_sethv_getLsbD _)⟩
  · obtain rfl := Decoded.command.inj ((decode_op9 hop).symm.trans h)
    exact ⟨rfl, encode_eq_and_namedBits hop rfl BitVec.and_zero.symm (zero_append_extract_low 24 8 _)⟩
  · obtain rfl := Decoded.command.inj ((decode_opA hop).symm.trans h)
    exact ⟨rfl, encode_eq_and_namedBits hop rfl BitVec.and_zero.symm (zero_append_extract_low 24 8 _)⟩
  · rw [decode_opReserved hres] at h
    cases h

/-! ## Reserved opcodes and reserved bits -/

/-- A word whose opcode is none of R68's is a command. -/
theorem decode_command_or_reserved (w : CmdWord) : (∃ i, decode w = .command i) ∨
    (opField w).toNat = 0 ∨ (opField w).toNat = 7 ∨ 11 ≤ (opField w).toNat := by
  rcases opField_cases w with h | h | h | h | h | h | h | h | h | h
  exacts [.inl ⟨_, decode_op1 h⟩, .inl ⟨_, decode_op2 h⟩, .inl ⟨_, decode_op3 h⟩, .inl ⟨_, decode_op4 h⟩,
    .inl ⟨_, decode_op5 h⟩, .inl ⟨_, decode_op6 h⟩, .inl ⟨_, decode_op8 h⟩, .inl ⟨_, decode_op9 h⟩,
    .inl ⟨_, decode_opA h⟩, .inr h]

theorem decode_reserved_iff (w : CmdWord) : (∃ op, decode w = .reserved op) ↔
    (opField w).toNat = 0 ∨ (opField w).toNat = 7 ∨ 11 ≤ (opField w).toNat := by
  refine ⟨fun ⟨op, h⟩ => ?_, fun h => ⟨_, decode_opReserved h⟩⟩
  obtain ⟨i, hi⟩ | hres := decode_command_or_reserved w
  · exact absurd (hi.symm.trans h) nofun
  · exact hres

/-- A reserved word carries its opcode and nothing else. -/
theorem eq_opField_of_decode_reserved {w : CmdWord} {op : BitVec 4} (h : decode w = .reserved op) : op = opField w :=
  (Decoded.reserved.inj ((decode_opReserved ((decode_reserved_iff w).1 ⟨op, h⟩)).symm.trans h)).symm

/-- The encoder gives different words to different well-formed commands. -/
theorem encode_injective {i j : Instr} (hi : i.wellFormed = true) (hj : j.wellFormed = true)
    (h : encode i = encode j) : i = j := by
  have hdec := decode_encode hi
  rw [h, decode_encode hj] at hdec
  exact (Decoded.command.inj hdec).symm

/-- The decoder reads the named bits alone (R69): of two words that agree on them both are reserved with the same
opcode, or both are commands, and the commands have one and the same word. -/
theorem decode_congr_namedBits {w v : CmdWord} (h : w &&& namedBits (opField w) = v &&& namedBits (opField w)) :
    decode v = decode w := by
  have hop : opField v = opField w := by
    rw [← opField_and_namedBits v (opField w), ← h, opField_and_namedBits]
  have hres : (∃ op, decode v = .reserved op) ↔ ∃ op, decode w = .reserved op := by
    rw [decode_reserved_iff, decode_reserved_iff, hop]
  cases hw : decode w with
  | reserved op =>
    obtain ⟨op', hv⟩ := hres.2 ⟨op, hw⟩
    rw [hv, eq_opField_of_decode_reserved hv, eq_opField_of_decode_reserved hw, hop]
  | command i =>
    cases hv : decode v with
    | reserved op =>
      obtain ⟨op', hw'⟩ := hres.1 ⟨op, hv⟩
      exact absurd (hw.symm.trans hw') nofun
    | command j =>
      obtain ⟨hiwf, hi⟩ := encode_of_decode hw
      obtain ⟨hjwf, hj⟩ := encode_of_decode hv
      rw [encode_injective hiwf hjwf (by rw [hi, hj, hop, h])]

/-- A step looks at the word it takes through the decoder alone. -/
theorem step_present_congr (s : State) {w v : CmdWord} (h : decode v = decode w) :
    step (s.present v) = step (s.present w) := by
  cases hw : decode w with
  | command i =>
    rw [step_of_command (present_port s v) (h.trans hw), step_of_command (present_port s w) hw]
    rfl
  | reserved op =>
    rw [step_of_reserved (present_port s v) (h.trans hw), step_of_reserved (present_port s w) hw]
    rfl

/-- The reserved bits of a well-formed command's word are zero, for the word is its own re-encoding. -/
theorem encode_and_namedBits_of_wellFormed {i : Instr} (hi : i.wellFormed = true) :
    encode i &&& namedBits i.opcode = encode i := by
  obtain ⟨-, henc⟩ := encode_of_decode (decode_encode hi)
  rw [(fields_encode i).1] at henc
  exact henc.symm

/-- The encoder writes the reserved bits as zero (R69). Only a SETNUM can be ill formed, and its format has none. -/
theorem encode_and_namedBits (i : Instr) : encode i &&& namedBits i.opcode = encode i := by
  cases i with
  | setnum number mask => exact BitVec.and_allOnes
  | settext | clear | putunit | display | shiftb | sethv | setbrt | setind =>
    exact encode_and_namedBits_of_wellFormed rfl

/-! ## The packed unit -/

/-- The bytes of a value with one more byte joined below it: that byte, then the value's own. -/
theorem bytes_append {m : Nat} (x : BitVec m) (b : Byte) (n : Nat) :
    (List.range (n + 1)).map (fun i => (x ++ b).extractLsb' (8 * i) 8) =
      b :: (List.range n).map fun i => x.extractLsb' (8 * i) 8 := by
  have hshift (i : Nat) : (x ++ b).extractLsb' (8 * (i + 1)) 8 = x.extractLsb' (8 * i) 8 := by
    rw [BitVec.extractLsb'_append_eq_of_le (by omega), Nat.mul_succ, Nat.add_sub_cancel]
  rw [List.range_succ_eq_map, List.map_cons, List.map_map]
  exact congrArg₂ List.cons (extract_low x b) (List.map_congr_left fun i _ => hshift i)

/-- The five bytes of a unit value are those it was joined from (R53, R54). -/
theorem unitBytes_joinBytes (b0 b1 b2 b3 b4 : Byte) :
    unitBytes (joinBytes [b0, b1, b2, b3, b4]) = [b0, b1, b2, b3, b4] :=
  (bytes_append (b4 ++ b3 ++ b2 ++ b1) b0 4).trans <| congrArg (b0 :: ·) <|
  (bytes_append (b4 ++ b3 ++ b2) b1 3).trans <| congrArg (b1 :: ·) <|
  (bytes_append (b4 ++ b3) b2 2).trans <| congrArg (b2 :: ·) <|
  (bytes_append b4 b3 1).trans <| congrArg (b3 :: [·]) BitVec.extractLsb'_eq_self

/-- Digit field `q` of a packed unit, bits `10q+9:10q`, is the pattern packed there (R54, R55). -/
theorem extract_packPatterns (p : Positions Pattern) {q : Nat} (hq : q < 4) :
    (packPatterns p).extractLsb' (10 * q) 10 = fieldAt p q := by
  apply BitVec.eq_of_getLsbD_eq
  intro i hi
  have hfield := List.map_inj_left.1 (field_packPatterns p hq) i (List.mem_range.2 hi)
  rw [BitVec.getLsbD_extractLsb', decide_eq_true hi, Bool.true_and, hfield]

/-- Unpacking undoes packing, field by field (R55). -/
theorem unpack_packPatterns (p : Positions Pattern) : unpack (packPatterns p) = p := by
  have hu : (packPatterns p).extractLsb' 0 10 = p.units := extract_packPatterns p (q := 0) (by decide)
  have ht : (packPatterns p).extractLsb' 10 10 = p.tens := extract_packPatterns p (q := 1) (by decide)
  have hh : (packPatterns p).extractLsb' 20 10 = p.hundreds := extract_packPatterns p (q := 2) (by decide)
  have hk : (packPatterns p).extractLsb' 30 10 = p.thousands := extract_packPatterns p (q := 3) (by decide)
  rw [unpack, hu, ht, hh, hk]

/-- A unit value is its four fields joined: no bit is left over and none is shared (R54). -/
theorem append_unpack (v : UnitValue) :
    (unpack v).thousands ++ (unpack v).hundreds ++ (unpack v).tens ++ (unpack v).units = v := by
  have h2 : v.extractLsb' 30 10 ++ v.extractLsb' 20 10 = v.extractLsb' 20 20 :=
    BitVec.extractLsb'_append_extractLsb'_eq_extractLsb' rfl
  have h3 : v.extractLsb' 20 20 ++ v.extractLsb' 10 10 = v.extractLsb' 10 30 :=
    BitVec.extractLsb'_append_extractLsb'_eq_extractLsb' rfl
  simp only [unpack, h2, h3]
  exact BitVec.extractLsb'_append_extractLsb'

/-- A packed unit is the or of its patterns, each shifted to its field (R54). -/
theorem packPatterns_eq_or (p : Positions Pattern) : packPatterns p =
    p.units.setWidth 40 ||| p.tens.setWidth 40 <<< 10 ||| p.hundreds.setWidth 40 <<< 20 |||
      p.thousands.setWidth 40 <<< 30 := by
  have hfields : p.thousands ++ p.hundreds ++ p.tens ++ p.units = packPatterns p := by
    have hjoin := append_unpack (packPatterns p)
    rwa [unpack_packPatterns] at hjoin
  calc packPatterns p
    _ = (p.thousands ++ p.hundreds ++ p.tens ++ p.units).setWidth 40 := by rw [hfields, BitVec.setWidth_eq]
    _ = p.thousands.setWidth 40 <<< 30 ||| p.hundreds.setWidth 40 <<< 20 ||| p.tens.setWidth 40 <<< 10 |||
        p.units.setWidth 40 := BitVec.setWidth_append_append_append_eq_shiftLeft_setWidth_or
    _ = _ := by
      rw [BitVec.or_comm _ (p.units.setWidth 40), BitVec.or_comm _ (p.tens.setWidth 40 <<< 10),
        BitVec.or_comm (p.thousands.setWidth 40 <<< 30), BitVec.or_assoc, BitVec.or_assoc]

/-- With distinct patterns the digit of an entry is its index (R47, R55). -/
theorem digitOf_get {tbl : PatternTable} (h : tbl.Distinct) (d : DigitIndex) : digitOf tbl (tbl.get d) = some d := by
  cases hd : digitOf tbl (tbl.get d) with
  | none => exact absurd rfl (digitOf_eq_none_iff.1 hd d)
  | some e => rw [h e d (digitOf_eq_some hd)]

/-! ## The statements -/

/-- Settles O1: the fields of the command's word are the command's own, and each format's operands read back. -/
theorem decodeOfEncodeIsTheCommand : Obligations.DecodeOfEncodeIsTheCommand := by
  unfold Obligations.DecodeOfEncodeIsTheCommand
  intro i hi
  exact decode_encode hi

/-- Settles O2, format by format. -/
theorem encodeOfDecodeClearsReservedBits : Obligations.EncodeOfDecodeClearsReservedBits := by
  unfold Obligations.EncodeOfDecodeClearsReservedBits
  intro w i h
  exact encode_of_decode h

/-- Settles O3: the two round trips make the decoder blind to reserved bits, and the step sees a word only through the
decoder. -/
theorem reservedBitsAreIgnored : Obligations.ReservedBitsAreIgnored := by
  unfold Obligations.ReservedBitsAreIgnored
  refine ⟨fun w v h => decode_congr_namedBits h, fun s w v h => step_present_congr s (decode_congr_namedBits h),
    encode_and_namedBits, fun i hi => ⟨decode_encode hi, fun s => ?_⟩⟩
  obtain ⟨t, ht⟩ := exec_withPort i s
  exact ⟨_, (step_of_encode hi s s.port).trans (ht s.port)⟩

/-- Settles O4: the decoder's answer by opcode, and the step over a reserved word. -/
theorem reservedOpcodeDoesNothing : Obligations.ReservedOpcodeDoesNothing := by
  unfold Obligations.ReservedOpcodeDoesNothing
  exact ⟨decode_reserved_iff, fun s w rest hp h => step_of_reserved hp (decode_opReserved h)⟩

/-- Settles O14: the bytes are those that were joined, and each bit of the unit is one bit of one pattern. -/
theorem packFollowsTheLayout : Obligations.PackFollowsTheLayout := by
  unfold Obligations.PackFollowsTheLayout
  intro tbl d
  have hfield {q : Nat} (hq : q < 4) := extract_packPatterns (lookup tbl d) hq
  exact ⟨unitBytes_joinBytes _ _ _ _ _, packPatterns_eq_or (lookup tbl d), hfield (q := 0) (by decide),
    hfield (q := 1) (by decide), hfield (q := 2) (by decide), hfield (q := 3) (by decide)⟩

/-- Settles O15, by unpacking field by field and by what it means that no entry, or only one, equals a pattern. -/
theorem unpackInvertsPack : Obligations.UnpackInvertsPack := by
  unfold Obligations.UnpackInvertsPack
  intro tbl
  exact ⟨fun d => unpack_packPatterns (lookup tbl d), digitOf_get, fun _ hp => digitOf_eq_none_iff.2 hp⟩

/-- Settles O5: each word evaluated by the decoder. -/
theorem sampleWordsDecode : Obligations.SampleWordsDecode := by
  unfold Obligations.SampleWordsDecode
  decide

/-- Settles O6: the expansion of each form. -/
theorem pseudoFormsExpand : Obligations.PseudoFormsExpand := by
  unfold Obligations.PseudoFormsExpand
  exact fun _ => ⟨rfl, rfl⟩

end Sys2Proof.Proofs.Encoding
end

section
/-! PROOFS of the statements of spec/40_digit_encoder.md. First the digits and the text value; then what filled units
read as, and how CLEAR and PUTUNIT fill them; then the statements. -/

namespace Sys2Proof.Proofs.DigitEncoder

open Sys2Proof.Machine Sys2Proof.Laws Sys2Proof.Proofs.Scope Sys2Proof.Proofs.Encoding

/-! ## Digits -/

/-- One position: the decimal digit where it is visible, index 10 where it is not (R50, R75). -/
theorem val_maskedDigit (visible : Bool) (x : Nat) :
    (if visible then decimalDigit x else darkIndex).val = if visible then x % 10 else 10 := by
  cases visible <;> rfl

/-- A position that is not visible shows the dark pattern, whatever the number has there (R83). -/
theorem get_hiddenDigit (t : PatternTable) {visible : Bool} (h : visible = false) (x : Nat) :
    t.get (if visible then decimalDigit x else darkIndex) = t.get 10 := by
  rw [h]
  rfl

/-- The digits see a number only through its clamp (R74, R75). -/
theorem digits_congr {n n' : Int} (h : clampNumber n = clampNumber n') (m : BitVec 4) : digits n m = digits n' m := by
  simp only [digits, h]

/-- With every position visible, a number in range shows its four decimal digits (R75, R83). -/
theorem digits_allVisible {n : Nat} (h : n ≤ 9999) : digits n 0b1111 =
    ⟨decimalDigit (n / 1000), decimalDigit (n / 100), decimalDigit (n / 10), decimalDigit n⟩ := by
  have hdigits : digits n 0b1111 = ⟨decimalDigit (clampNumber n / 1000), decimalDigit (clampNumber n / 100),
    decimalDigit (clampNumber n / 10), decimalDigit (clampNumber n)⟩ := rfl
  rw [hdigits, clampNumber_natCast h]

/-- With no position visible, every digit is the dark one, whatever the number (R81). -/
theorem digits_noneVisible (n : Int) : digits n 0b0000 = ⟨darkIndex, darkIndex, darkIndex, darkIndex⟩ := rfl

/-- SETNUM sees its number only through its clamp (R74). -/
theorem exec_setnum_congr {n n' : Int} (h : clampNumber n = clampNumber n') (m : BitVec 4) (s : State) :
    exec (.setnum n m) s = exec (.setnum n' m) s := by
  rw [exec_setnum, exec_setnum, encodeNumber, digits_congr h, encodeNumber]

theorem exec_setnum_clampNumber (n : Int) (m : BitVec 4) (s : State) :
    exec (.setnum n m) s = exec (.setnum (clampNumber n) m) s :=
  exec_setnum_congr (clampNumber_clampNumber n).symm m s

/-- After SETNUM, the fields of unit 0 are the patterns of the digits (R55, R76). -/
theorem unpack_unit_encodeNumber (n : Int) (m : BitVec 4) (s : State) :
    unpack ((encodeNumber n m s).unit 0) = lookup s.pattern (digits n m) := by
  rw [unit_encodeNumber, pack, unpack_packPatterns]

/-- SETNUM and SETTEXT change no byte above unit 0 (R35, R76). -/
theorem read_encodeNumber_of_ge (n : Int) (m : BitVec 4) (s : State) {a : Nat} (ha : 5 ≤ a) :
    Memory.read (encodeNumber n m s).buf a = Memory.read s.buf a := by
  rw [encodeNumber, writeUnit_buf, read_writeUnit, if_neg (by omega)]

/-! ## Text -/

/-- The text value as a decimal number with the characters' digits (R77). -/
theorem textValue_eq (c0 c1 c2 c3 : Byte) : textValue c0 c1 c2 c3 =
    charDigit c0 * 1000 + charDigit c1 * 100 + charDigit c2 * 10 + charDigit c3 := by
  obtain ⟨h0, -, -, -⟩ := textContribution_eq c0
  obtain ⟨-, h1, -, -⟩ := textContribution_eq c1
  obtain ⟨-, -, h2, -⟩ := textContribution_eq c2
  obtain ⟨-, -, -, h3⟩ := textContribution_eq c3
  rw [textValue, h0, h1, h2, h3]

theorem textValue_le (c0 c1 c2 c3 : Byte) : textValue c0 c1 c2 c3 ≤ 9999 := by
  have h0 := charDigit_le c0
  have h1 := charDigit_le c1
  have h2 := charDigit_le c2
  have h3 := charDigit_le c3
  rw [textValue_eq]
  omega

theorem decimalDigit_congr {x y : Nat} (h : x % 10 = y % 10) : decimalDigit x = decimalDigit y := Fin.ext h

/-- The decimal digits of the text value are the characters' digits: no position carries into the next (R77, R78). -/
theorem digits_textValue (c0 c1 c2 c3 : Byte) : digits (textValue c0 c1 c2 c3) 0b1111 =
    ⟨decimalDigit (charDigit c0), decimalDigit (charDigit c1), decimalDigit (charDigit c2),
      decimalDigit (charDigit c3)⟩ := by
  have h1 := charDigit_le c1
  have h2 := charDigit_le c2
  have h3 := charDigit_le c3
  rw [digits_allVisible (textValue_le c0 c1 c2 c3), textValue_eq, Positions.mk.injEq]
  exact ⟨decimalDigit_congr (by omega), decimalDigit_congr (by omega), decimalDigit_congr (by omega),
    decimalDigit_congr (by omega)⟩

/-! ## Filled units -/

/-- A unit that was filled holds the value (R31, R79). -/
theorem unit_fillUnits (v : UnitValue) {us : List Nat} {u : Nat} (hu : u ∈ us) (s : State) :
    (State.fillUnits v us s).unit u = v := by
  apply BitVec.eq_of_getLsbD_eq
  intro j hj
  have hdiv : (5 * u + j / 8) / 5 = u := by omega
  have hmod : (5 * u + j / 8) % 5 = j / 8 := by omega
  have hbit : 8 * (j / 8) + j % 8 = j := Nat.div_add_mod j 8
  have hlt : j % 8 < 8 := Nat.mod_lt _ (by decide)
  rw [State.unit, getLsbD_readUnit _ _ hj, read_fillUnits, hdiv, hmod, if_pos hu, BitVec.getLsbD_extractLsb', hbit,
    decide_eq_true hlt, Bool.true_and]

/-- Filling the same units again with the same value changes nothing, the contents being equal data in their canonical
form. -/
theorem fillUnits_fillUnits (v : UnitValue) (us : List Nat) {s : State} (h : Memory.wf s.buf = true) :
    State.fillUnits v us (State.fillUnits v us s) = State.fillUnits v us s := by
  have hwf : Memory.wf (State.fillUnits v us s).buf = true := wf_fillUnits v us h
  have hread : ∀ x, Memory.read (State.fillUnits v us (State.fillUnits v us s)).buf x =
      Memory.read (State.fillUnits v us s).buf x := by
    intro x
    rw [read_fillUnits, read_fillUnits]
    split <;> rfl
  rw [fillUnits_eq v us (State.fillUnits v us s), memory_ext (wf_fillUnits v us hwf) hwf hread]

/-- An encoder command fills the same units with the same value whatever the buffer holds (R73). -/
theorem exec_fills_alike_of_writesBuf {i : Instr} (hi : i.writesBuf = true) (s : State) :
    ∃ v us, ∀ m, exec i { s with buf := m } = .next (State.fillUnits v us { s with buf := m }) := by
  cases i with
  | setnum number mask => exact ⟨pack s.pattern (digits number mask), [0], fun _ => rfl⟩
  | settext c0 c1 c2 c3 => exact ⟨pack s.pattern (digits (textValue c0 c1 c2 c3) 0b1111), [0], fun _ => rfl⟩
  | clear fill => exact ⟨rawExpand s.platform.rawTable fill, List.range s.boards.count, fun _ => rfl⟩
  | putunit index word => exact ⟨rawExpand s.platform.rawTable word, [wrapIndex s.boards index], fun _ => rfl⟩
  | display | shiftb | sethv | setbrt | setind => simp [Instr.writesBuf] at hi

/-- An encoder command executed twice leaves what it leaves once (R84). -/
theorem exec_twice_of_writesBuf {i : Instr} (hi : i.writesBuf = true) {s : State} (hwf : Memory.wf s.buf = true) :
    ∃ t, exec i s = .next t ∧ exec i t = .next t := by
  obtain ⟨v, us, hexec⟩ := exec_fills_alike_of_writesBuf hi s
  refine ⟨State.fillUnits v us s, hexec s.buf, ?_⟩
  have hagain := hexec (State.fillUnits v us s).buf
  rwa [← fillUnits_eq, fillUnits_fillUnits v us hwf] at hagain

/-! ## CLEAR as a row of PUTUNITs -/

/-- An index of a unit of the buffer fits the operand and is not wrapped (R62). -/
theorem wrapIndex_ofNat {n : BoardCount} {u : Nat} (hu : u < n.count) : wrapIndex n (BitVec.ofNat 8 u) = u := by
  have hfits : (BitVec.ofNat 8 u).toNat = u := by
    have := n.le_255
    rw [BitVec.toNat_ofNat]
    exact Nat.mod_eq_of_lt (by omega)
  rw [wrapIndex_of_lt (by rwa [hfits]), hfits]

/-- PUTUNITs of one word to units of the buffer, one after another, fill those units with its expansion (R80, R84). -/
theorem runCommands_putunits (f : RawWord) {us : List Nat} {s : State} (hus : ∀ u ∈ us, u < s.boards.count) :
    runCommands (us.map fun u => .putunit (BitVec.ofNat 8 u) f) s =
      .next (State.fillUnits (rawExpand s.platform.rawTable f) us s) := by
  induction us generalizing s with
  | nil => rfl
  | cons u us ih =>
    simp only [List.map_cons, runCommands, exec_putunit, wrapIndex_ofNat (hus u (by simp))]
    exact ih (s := s.writeUnit u _) fun w hw => hus w (List.mem_cons_of_mem u hw)

/-! ## The dark unit -/

/-- With a zero dark pattern the dark unit is zero (R48, R81). -/
theorem darkUnit_of_darkZero {tbl : PatternTable} (h : tbl.DarkZero) : darkUnit tbl = 0 := by
  have hdark : tbl.get darkIndex = 0 := h
  rw [darkUnit, pack, packPatterns_eq_or]
  simp only [lookup, hdark]
  rfl

/-! ## The statements -/

/-- Settles O13: each contribution is the character's digit times the weight of its position. -/
theorem textValueWeighsDigits : Obligations.TextValueWeighsDigits := by
  unfold Obligations.TextValueWeighsDigits
  intro c0 c1 c2 c3
  have hvalue := textValue_eq c0 c1 c2 c3
  refine ⟨by omega, by omega, fun c hc => ?_, fun c h0 h9 => ?_, textValue_le c0 c1 c2 c3⟩
  · rw [charDigit, if_neg (by omega)]
  · rw [charDigit, if_pos ⟨h0, h9⟩]

/-- Settles O16: unit 0 is the packed digits, and a packed unit is the or of its shifted patterns. -/
theorem setnumWritesThePackedDigits : Obligations.SetnumWritesThePackedDigits := by
  unfold Obligations.SetnumWritesThePackedDigits
  intro s number mask
  exact ⟨_, exec_setnum s number mask, rfl, (unit_encodeNumber number mask s).trans (packPatterns_eq_or _),
    fun _ ha => read_encodeNumber_of_ge number mask s ha⟩

/-- Settles O17: the digits of the text value are the characters' own. -/
theorem settextShowsEachCharactersDigit : Obligations.SettextShowsEachCharactersDigit := by
  unfold Obligations.SettextShowsEachCharactersDigit
  intro s c0 c1 c2 c3
  refine ⟨_, exec_settext s c0 c1 c2 c3, rfl, ?_, fun _ ha => read_encodeNumber_of_ge _ _ s ha⟩
  rw [unpack_unit_encodeNumber, digits_textValue, lookup]

/-- Settles O18: every unit of the buffer is among those filled, and no byte beyond it lies in one. -/
theorem clearFillsEveryUnit : Obligations.ClearFillsEveryUnit := by
  unfold Obligations.ClearFillsEveryUnit
  intro s fill
  refine ⟨_, exec_clear s fill, fillUnits_eq _ _ s, fun u hu => unit_fillUnits _ (List.mem_range.2 hu) s,
    fun a ha => ?_⟩
  have hbeyond : a / 5 ∉ List.range s.boards.count := by
    rw [List.mem_range]
    omega
  rw [read_fillUnits, if_neg hbeyond]

/-- Settles O19: the wrapped index is below `N`, and a unit write changes the bytes of its slice alone. -/
theorem putunitWritesTheWrappedUnit : Obligations.PutunitWritesTheWrappedUnit := by
  unfold Obligations.PutunitWritesTheWrappedUnit
  intro s index word
  refine ⟨_, exec_putunit s index word, rfl, rfl, wrapIndex_lt s.boards index, readUnit_writeUnit_same _ _ _,
    fun a ha => ?_⟩
  rw [writeUnit_buf, read_writeUnit, if_neg ha]

/-- Settles O20: the digits of a number in range, the clamp, the masked positions, and unpacking what was packed. -/
theorem encoderMeetsTheSourcesProperties : Obligations.EncoderMeetsTheSourcesProperties := by
  unfold Obligations.EncoderMeetsTheSourcesProperties
  refine ⟨fun s n hn => ?_, fun s n m => ⟨fun h => ?_, fun h => ?_⟩, fun s n m => ?_, fun tbl d => ?_⟩
  · refine ⟨_, exec_setnum s n 0b1111, ?_⟩
    rw [unpack_unit_encodeNumber, digits_allVisible hn, lookup]
  · exact exec_setnum_congr (clampNumber_of_neg h) m s
  · exact exec_setnum_congr (clampNumber_of_large h) m s
  · refine ⟨_, exec_setnum s n m, ?_⟩
    rw [unpack_unit_encodeNumber]
    exact ⟨fun h => get_hiddenDigit _ h _, fun h => get_hiddenDigit _ h _, fun h => get_hiddenDigit _ h _,
      fun h => get_hiddenDigit _ h _⟩
  · have hunpack : unpack (pack tbl d) = lookup tbl d := unpack_packPatterns (lookup tbl d)
    rw [hunpack]
    exact ⟨rfl, fun hd => ⟨digitOf_get hd _, digitOf_get hd _, digitOf_get hd _, digitOf_get hd _⟩⟩

/-- Settles O21: SETNUM sees the clamp alone, SETTEXT is SETNUM of the value, CLEAR and the PUTUNITs fill the same
units, and filling them again changes nothing. -/
theorem encoderCommandsAgree : Obligations.EncoderCommandsAgree := by
  unfold Obligations.EncoderCommandsAgree
  refine ⟨fun s n m => exec_setnum_clampNumber n m s, fun _ _ _ _ _ => rfl, fun s f => ?_,
    fun _ _ hinv hi => exec_twice_of_writesBuf hi hinv.buf_wf⟩
  rw [runCommands_putunits f fun u hu => List.mem_range.1 hu, exec_clear]

/-- Settles O22: digits that are all dark pack to the dark unit, and the default blank expands to it. -/
theorem darkUnitIsReachedThreeWays : Obligations.DarkUnitIsReachedThreeWays := by
  unfold Obligations.DarkUnitIsReachedThreeWays
  refine ⟨fun s x => ⟨_, exec_setnum s x 0b0000, ?_⟩, fun s index hblank => ⟨_, exec_putunit s index _, ?_⟩,
    fun s hblank => ⟨_, exec_clear s _, fun u hu => ?_⟩, fun tbl h => ?_⟩
  · rw [unit_encodeNumber, digits_noneVisible, darkUnit]
  · exact (readUnit_writeUnit_same _ _ _).trans hblank
  · exact (unit_fillUnits _ (List.mem_range.2 hu) s).trans hblank
  · rw [darkUnit_of_darkZero h]
    exact ⟨rfl, by decide⟩

/-- Settles O11: the clamp's three cases and its range, and that SETNUM sees the clamp alone. -/
theorem numberIsClamped : Obligations.NumberIsClamped := by
  unfold Obligations.NumberIsClamped
  exact ⟨fun _ => clampNumber_of_neg, fun _ => clampNumber_of_large, fun _ => clampNumber_of_mem, clampNumber_le,
    exec_setnum_clampNumber⟩

/-- Settles O12, position by position. -/
theorem digitsFollowTheMask : Obligations.DigitsFollowTheMask := by
  unfold Obligations.DigitsFollowTheMask
  intro n m
  exact ⟨val_maskedDigit _ _, val_maskedDigit _ _, val_maskedDigit _ _, val_maskedDigit _ _⟩

end Sys2Proof.Proofs.DigitEncoder
end

section
/-! PROOFS of the statements of spec/41_bus_transmitter.md. First one event; then what DISPLAY and SHIFTB leave, each
said once; then the counts over the events; then the statements. -/

namespace Sys2Proof.Proofs.Transmitter

open Sys2Proof.Machine Sys2Proof.Laws Sys2Proof.Proofs.Scope Sys2Proof.Proofs.Registers

/-! ## One event -/

/-- A write of the level a line has already is no rising edge (R90, R98). -/
theorem isRising_of_same_level {s : State} {line : Line} {level : Level} (h : s.level line = level) (k : Line) :
    s.isRising k ⟨line, level⟩ = false := by
  refine Bool.eq_false_iff.2 fun hr => ?_
  obtain ⟨he, hlow⟩ := (isRising_iff s k ⟨line, level⟩).1 hr
  cases he
  simp [h] at hlow

/-- `VIS` stays at every event that is no rising edge of the latch line (R100). -/
theorem emit_vis_of_not_latch_edge {s : State} {e : Event} (h : ¬ (e = ⟨.latch, true⟩ ∧ s.latch = false)) :
    (s.emit e).vis = s.vis := by
  obtain ⟨-, -, -, hvis⟩ | ⟨he, hlow, -⟩ | ⟨-, hvis⟩ := emit_cases s e
  · exact hvis
  · exact absurd ⟨he, hlow⟩ h
  · exact hvis

/-- Events that never raise the latch line leave `VIS` as it was. -/
theorem emitAll_vis_of_no_latch_high {es : List Event} (h : ∀ e ∈ es, e ≠ ⟨.latch, true⟩) (s : State) :
    (State.emitAll es s).vis = s.vis := by
  induction es generalizing s with
  | nil => rfl
  | cons e es ih =>
    rw [State.emitAll, ih (fun e' he' => h e' (List.mem_cons_of_mem e he')),
      emit_vis_of_not_latch_edge fun hedge => h e (by simp) hedge.1]

/-- No event looks at the power registers (R103). -/
theorem emitAll_withPower (es : List Event) (s : State) (hv : Bool) (brt ind : BitVec 8) :
    State.emitAll es { s with hv := hv, brt := brt, ind := ind } =
      { State.emitAll es s with hv := hv, brt := brt, ind := ind } := by
  induction es generalizing s with
  | nil => rfl
  | cons e es ih => exact ih (s.emit e)

/-! ## What DISPLAY leaves -/

@[simp] theorem length_unitBits (s : State) : (unitBits s).length = 40 * s.boards.count := by simp [unitBits]

/-- The events of one DISPLAY: the bits of the units in order, then the latch pulse (R93, R95). -/
def displayEvents (s : State) : List Event := (unitBits s).flatMap bitEvents ++ latchEvents

theorem events_display (s : State) : (commandTicks s .display).map Tick.event = displayEvents s := by
  rw [commandTicks, events_displayTicks, serialBits_eq_unitBits, displayEvents]

theorem length_bits_events (bs : List Bool) : (bs.flatMap bitEvents).length = 3 * bs.length := by
  simp [bitEvents, List.length_flatMap, Nat.mul_comm]

theorem length_displayEvents (s : State) : (displayEvents s).length = 120 * s.boards.count + 2 := by
  rw [displayEvents, List.length_append, length_bits_events, length_unitBits]
  show 3 * (40 * s.boards.count) + 2 = _
  omega

/-- What one DISPLAY leaves when the chain is as long as the boards ask (R101). -/
def displayed (s : State) : State :=
  { s with data := serialBit s.buf (8 * s.bufLength - 1), clk := true, latch := true, sr := unitBits s,
           vis := unitBits s, trace := s.trace ++ displayEvents s }

/-- DISPLAY completes from every state; the chain, of any length, has captured the bits of the units. -/
theorem exec_display_eq (s : State) : exec .display s =
    .next { displayed s with sr := shiftIn s.sr (unitBits s), vis := shiftIn s.sr (unitBits s) } := by
  have hpos : 0 < s.bufLength := Nat.mul_pos (by decide) s.boards.one_le
  rw [exec_display, transmit_display hpos, serialBits_eq_unitBits]
  rfl

/-- As many bits as the chain is long replace it wholly, whatever it held (R101, R146). -/
theorem exec_display_of_length {s : State} (h : s.sr.length = s.chainLength) :
    exec .display s = .next (displayed s) := by
  have hfull : shiftIn s.sr (unitBits s) = unitBits s := shiftIn_full (by rw [h, length_unitBits, State.chainLength])
  rw [exec_display_eq, hfull]
  rfl

/-! ## What SHIFTB leaves -/

/-- A supported order sends eight bits, so the data line and the chain have them and the clock is high (R92, R96). -/
theorem exec_shiftb_of_eight {s : State} {order : BitVec 4} {v : Byte} (hsr : s.sr.length = s.chainLength)
    (h8 : (byteBits order v).length = 8) : exec (.shiftb order v) s = .next { s with
      data := (byteBits order v).getLastD s.data, clk := true, sr := s.sr.drop 8 ++ byteBits order v,
      trace := s.trace ++ (byteBits order v).flatMap bitEvents } := by
  have hne : byteBits order v ≠ [] := List.ne_nil_of_length_pos (by omega)
  have hle : (byteBits order v).length ≤ s.sr.length := by
    have := s.boards.one_le
    rw [hsr, h8, State.chainLength]
    omega
  rw [exec_shiftb, transmit_shiftByte, if_neg hne, shiftIn_of_le _ hle, h8]

theorem shiftByte_of_unsupported {order : BitVec 4} (h0 : order ≠ 0) (h1 : order ≠ 1) (i : Nat) (v : Byte) :
    shiftByte i order v = [] := by
  have h := events_shiftByte i order v
  rw [byteBits_unsupported h0 h1] at h
  exact List.map_eq_nil_iff.1 h

/-! ## One command after another -/

theorem runCommands_two {i j : Instr} {s t u : State} (hi : exec i s = .next t) (hj : exec j t = .next u) :
    runCommands [i, j] s = .next u := by
  simp only [runCommands, hi, hj]

/-! ## Pulses: a write of 1 that directly follows a write of 0 (R94) -/

/-- Each clock or latch write of 1 in a list directly follows a write of 0 to the same line, within the list. -/
def PulsesOnly (es : List Event) : Prop :=
  ∀ line : Line, line ≠ .data → es[0]? ≠ some ⟨line, true⟩ ∧
    ∀ j, es[j + 1]? = some ⟨line, true⟩ → es[j]? = some ⟨line, false⟩

theorem pulsesOnly_nil : PulsesOnly [] := fun _ _ => ⟨by simp, by simp⟩

/-- Lists of pulses joined are pulses: nothing is raised first, so no pulse is cut. -/
theorem pulsesOnly_append {xs ys : List Event} (hx : PulsesOnly xs) (hy : PulsesOnly ys) : PulsesOnly (xs ++ ys) := by
  intro line hline
  obtain ⟨hx0, hx⟩ := hx line hline
  obtain ⟨hy0, hy⟩ := hy line hline
  constructor
  · cases xs with
    | nil => exact hy0
    | cons x xs => exact hx0
  · intro j hj
    rcases Nat.lt_trichotomy (j + 1) xs.length with hin | hstart | hpast
    · rw [List.getElem?_append_left hin] at hj
      rw [List.getElem?_append_left (by omega)]
      exact hx j hj
    · rw [List.getElem?_append_right (by omega), hstart, Nat.sub_self] at hj
      exact absurd hj hy0
    · rw [List.getElem?_append_right (by omega), Nat.sub_add_comm (by omega)] at hj
      rw [List.getElem?_append_right (by omega)]
      exact hy _ hj

theorem pulsesOnly_bitEvents (b : Bool) : PulsesOnly (bitEvents b) := by
  intro line hline
  refine ⟨by simp [bitEvents, hline.symm], fun j hj => ?_⟩
  match j with
  | 0 => simp [bitEvents] at hj
  | 1 => simpa [bitEvents] using hj
  | j + 2 => simp [bitEvents] at hj

theorem pulsesOnly_latchEvents : PulsesOnly latchEvents := by
  intro line _
  refine ⟨by simp [latchEvents], fun j hj => ?_⟩
  match j with
  | 0 => simpa [latchEvents] using hj
  | j + 1 => simp [latchEvents] at hj

theorem pulsesOnly_bits (bs : List Bool) : PulsesOnly (bs.flatMap bitEvents) := by
  induction bs with
  | nil => exact pulsesOnly_nil
  | cons b bs ih => exact pulsesOnly_append (pulsesOnly_bitEvents b) ih

theorem pulsesOnly_displayEvents (s : State) : PulsesOnly (displayEvents s) :=
  pulsesOnly_append (pulsesOnly_bits _) pulsesOnly_latchEvents

/-- Where each write of 1 finds the line low, be it from the event before it or from the start, every one is a rising
edge (R94, R98). -/
theorem risingEdges_eq_count {line : Line} {es : List Event} {s : State}
    (hstart : es[0]? = some ⟨line, true⟩ → s.level line = false)
    (hnext : ∀ j, es[j + 1]? = some ⟨line, true⟩ → es[j]? = some ⟨line, false⟩) :
    risingEdges line es s = es.count ⟨line, true⟩ := by
  induction es generalizing s with
  | nil => rfl
  | cons e es ih =>
    have hedge : s.isRising line e = true ↔ e = ⟨line, true⟩ :=
      (isRising_iff s line e).trans ⟨And.left, fun he => ⟨he, hstart (by simp [he])⟩⟩
    have hlow : es[0]? = some ⟨line, true⟩ → (s.emit e).level line = false := fun h => by
      have he : e = ⟨line, false⟩ := by simpa using hnext 0 (by simpa using h)
      rw [emit_level, he, if_pos rfl]
    rw [risingEdges, ih hlow fun j hj => hnext (j + 1) hj, List.count_cons, Nat.add_comm]
    simp [hedge]

theorem risingEdges_of_pulsesOnly {es : List Event} (h : PulsesOnly es) {line : Line} (hline : line ≠ .data)
    (s : State) : risingEdges line es s = es.count ⟨line, true⟩ :=
  risingEdges_eq_count (fun h0 => absurd h0 (h line hline).1) (h line hline).2

/-! ## The counts of one DISPLAY's events (R94) -/

/-- An event that every bit sends just as often is counted once per bit and per occurrence. -/
theorem countP_bits_events {p : Event → Bool} {c : Nat} (h : ∀ b, (bitEvents b).countP p = c) (bs : List Bool) :
    (bs.flatMap bitEvents).countP p = c * bs.length := by
  induction bs with
  | nil => rfl
  | cons b bs ih => rw [List.flatMap_cons, List.countP_append, h, ih, List.length_cons, Nat.mul_succ, Nat.add_comm]

/-- Data is written 1 as often as a bit is 1. -/
theorem count_data_high_bits_events (bs : List Bool) :
    (bs.flatMap bitEvents).count ⟨.data, true⟩ = bs.count true := by
  induction bs with
  | nil => rfl
  | cons b bs ih =>
    rw [List.flatMap_cons, List.count_append, ih, List.count_cons, Nat.add_comm]
    cases b <;> rfl

theorem countP_displayEvents {p : Event → Bool} {c : Nat} (h : ∀ b, (bitEvents b).countP p = c) (s : State) :
    (displayEvents s).countP p = c * (40 * s.boards.count) + latchEvents.countP p := by
  rw [displayEvents, List.countP_append, countP_bits_events h, length_unitBits]

/-- Data is written 1 as often as the buffer has a 1 bit. -/
theorem count_data_high_displayEvents (s : State) :
    (displayEvents s).count ⟨.data, true⟩ = (List.range (40 * s.boards.count)).countP (serialBit s.buf) := by
  have hbits : (unitBits s).count true = (List.range (40 * s.boards.count)).countP (serialBit s.buf) := by
    rw [← serialBits_eq_unitBits, serialBits, List.count, List.countP_map, State.bufLength, ← Nat.mul_assoc]
    exact List.countP_congr fun k _ => by simp
  rw [displayEvents, List.count_append, count_data_high_bits_events, hbits]
  rfl

/-- A zero buffer has no 1 bit. -/
theorem countP_serialBit_of_zero {n : Nat} {m : Memory} (h : ∀ a, a < 5 * n → Memory.read m a = 0) :
    (List.range (40 * n)).countP (serialBit m) = 0 := by
  refine List.countP_eq_zero.2 fun k hk => ?_
  have : k < 40 * n := List.mem_range.1 hk
  rw [serialBit, h (k / 8) (by omega)]
  simp

/-! ## Power cut inside DISPLAY -/

/-- The latch line is raised by the last event of a DISPLAY only, so not before a cut (R102). -/
theorem no_latch_high_in_take {s : State} {k : Nat} (hk : k < 120 * s.boards.count + 2) :
    ∀ e ∈ (displayEvents s).take k, e ≠ ⟨.latch, true⟩ := by
  have hsplit : displayEvents s = ((unitBits s).flatMap bitEvents ++ [⟨.latch, false⟩]) ++ [⟨.latch, true⟩] := by
    simp [displayEvents, latchEvents]
  have hlen := length_displayEvents s
  rw [hsplit, List.length_append, List.length_singleton] at hlen
  rw [hsplit, List.take_append_of_le_length (by omega)]
  rintro e he rfl
  simpa [bitEvents] using List.mem_of_mem_take he

/-! ## The statements -/

/-- Settles O25, by the level of each line after one event. -/
theorem emitSetsTheLineAndJoinsTheTrace : Obligations.EmitSetsTheLineAndJoinsTheTrace := by
  unfold Obligations.EmitSetsTheLineAndJoinsTheTrace
  intro s line level
  refine ⟨?_, fun other hother => ?_, emit_trace s _, isRising_of_same_level⟩
  · rw [emit_level, if_pos rfl]
  · rw [emit_level, if_neg hother.symm]

/-- Settles O26, by the chain after a rising clock edge: its tail, then the data level. -/
theorem clockEdgeShiftsTheChain : Obligations.ClockEdgeShiftsTheChain := by
  unfold Obligations.ClockEdgeShiftsTheChain
  intro s hsr hclk
  have hlen : (s.sr.drop 1).length = s.chainLength - 1 := by rw [List.length_drop, hsr]
  have hpos : 0 < s.chainLength := Nat.mul_pos (by decide) s.boards.one_le
  rw [emit_clk_rising hclk]
  refine ⟨?_, fun j hj => ?_, ?_, rfl⟩
  · rw [List.length_append, hlen, List.length_singleton, Nat.sub_add_cancel hpos]
  · rw [List.getElem?_append_left (by omega), List.getElem?_drop, Nat.add_comm]
  · rw [← hlen, List.getElem?_concat_length]

/-- Settles O27, by what one event can do to the chain. -/
theorem latchEdgeCommitsTheChain : Obligations.LatchEdgeCommitsTheChain := by
  unfold Obligations.LatchEdgeCommitsTheChain
  exact ⟨fun s h => by rw [emit_latch_rising h], fun _ _ => emit_vis_of_not_latch_edge⟩

/-- Settles O28, by the three events of one bit. -/
theorem bitOutWritesDataBeforeTheClock : Obligations.BitOutWritesDataBeforeTheClock := by
  unfold Obligations.BitOutWritesDataBeforeTheClock
  intro s pos b
  have hevents : (bitOut pos b).map Tick.event = bitEvents b := rfl
  rw [ticks_eq_emitAll, hevents, emitAll_bitEvents]
  exact ⟨rfl, rfl, rfl⟩

/-- Settles O29, by the bits each order sends, three events a bit. -/
theorem shiftByteFollowsTheOrder : Obligations.ShiftByteFollowsTheOrder := by
  unfold Obligations.ShiftByteFollowsTheOrder
  intro s i order v
  refine ⟨?_, ?_, ?_, fun h0 h1 => ?_⟩
  · rintro rfl
    rw [events_shiftByte, byteBits_lsb, List.flatMap_map]
  · rintro rfl
    rw [events_shiftByte, byteBits_msb, List.flatMap_map]
  · intro h
    have h8 : (byteBits order v).length = 8 := by obtain rfl | rfl := h <;> rfl
    rw [← List.length_map Tick.event, events_shiftByte, length_bits_events, h8]
  · rw [shiftByte_of_unsupported h0 h1]
    exact ⟨rfl, rfl⟩

/-- Settles O30, by what DISPLAY leaves from every state; its last bit is bit 7 of the last byte. -/
theorem displaySendsTheUnitsThenLatches : Obligations.DisplaySendsTheUnitsThenLatches := by
  unfold Obligations.DisplaySendsTheUnitsThenLatches
  intro s
  refine ⟨_, exec_display_eq s, rfl, ?_, rfl, rfl, ?_⟩
  · show s.trace ++ displayEvents s = _
    rw [displayEvents, unitBits, List.flatMap_map]
  · have := s.boards.one_le
    show serialBit s.buf (8 * (5 * s.boards.count) - 1) = _
    rw [serialBit, show (8 * (5 * s.boards.count) - 1) / 8 = 5 * s.boards.count - 1 by omega,
      show (8 * (5 * s.boards.count) - 1) % 8 = 7 by omega]

/-- Settles O31: the units fill the chain, and each board shows the fields of its unit. -/
theorem displayShowsTheBuffer : Obligations.DisplayShowsTheBuffer := by
  unfold Obligations.DisplayShowsTheBuffer
  intro s hsr
  exact ⟨displayed s, exec_display_of_length hsr, rfl, rfl, fun _ _ => visPattern_of_unitBits rfl⟩

/-- Settles O32: the events carried out before the cut never raise the latch line. -/
theorem noPartialCommit : Obligations.NoPartialCommit := by
  unfold Obligations.NoPartialCommit
  intro s k
  have hlen : (commandTicks s .display).length = 120 * s.boards.count + 2 := by
    rw [← List.length_map Tick.event, events_display, length_displayEvents]
  rw [State.cutPower, hlen]
  refine ⟨fun hk => ⟨_, if_pos hk, ?_⟩, fun hk => if_neg (by omega)⟩
  rw [ticks_eq_emitAll, List.map_take, events_display]
  exact ⟨emitAll_vis_of_no_latch_high (no_latch_high_in_take hk) s, emitAll_buf _ s⟩

/-- Settles O33: each bit sends the same events but for its data level, every rise is a pulse, and so every rise is an
edge. -/
theorem displayEventCounts : Obligations.DisplayEventCounts := by
  unfold Obligations.DisplayEventCounts
  intro s
  have hpulses := pulsesOnly_displayEvents s
  have hdata : (displayEvents s).countP (fun e => e.line == .data) = 40 * s.boards.count := by
    rw [countP_displayEvents (c := 1) fun _ => rfl, Nat.one_mul]
    rfl
  have hclk : ∀ b, (displayEvents s).count ⟨.clk, b⟩ = 40 * s.boards.count := fun b => by
    rw [List.count, countP_displayEvents (c := 1) (by cases b <;> decide), Nat.one_mul]
    cases b <;> rfl
  have hlatch : ∀ b, (displayEvents s).count ⟨.latch, b⟩ = 1 := fun b => by
    rw [List.count, countP_displayEvents (c := 0) (by cases b <;> decide), Nat.zero_mul]
    cases b <;> rfl
  have hhigh := count_data_high_displayEvents s
  exact ⟨_, displayEvents s, exec_display_eq s, rfl, length_displayEvents s, hdata, hclk false, hclk true,
    hlatch false, hlatch true,
    (risingEdges_of_pulsesOnly hpulses (by decide) s).trans (hclk true),
    (risingEdges_of_pulsesOnly hpulses (by decide) s).trans (hlatch true),
    fun j line hline => (hpulses line hline).2 j, fun line hline => (hpulses line hline).1,
    hhigh, fun hzero => hhigh.trans (countP_serialBit_of_zero hzero)⟩

/-- Settles O34: the first DISPLAY leaves the buffer and a chain of the same length, so the second sends the same. -/
theorem displayTwiceIsDisplayOnce : Obligations.DisplayTwiceIsDisplayOnce := by
  unfold Obligations.DisplayTwiceIsDisplayOnce
  intro s hinv
  have hfirst := exec_display_of_length hinv.sr_length
  have hsecond := exec_display_of_length (exec_keeps_inv hinv hfirst).sr_length
  exact ⟨displayed s, displayed (displayed s), displayEvents s, hfirst, hsecond, rfl, rfl, rfl, rfl,
    length_displayEvents s⟩

/-- Settles O35, by what SHIFTB leaves for eight bits, and for none. -/
theorem shiftbSendsOneByte : Obligations.ShiftbSendsOneByte := by
  unfold Obligations.ShiftbSendsOneByte
  refine ⟨fun s v hsr => ⟨_, exec_shiftb_of_eight hsr rfl, rfl, rfl, ?_⟩,
    fun s v hsr => ⟨_, exec_shiftb_of_eight hsr rfl, rfl, rfl, ?_⟩, fun s order v h0 h1 => ?_⟩
  · rw [byteBits_lsb, List.flatMap_map]
  · rw [byteBits_msb, List.flatMap_map]
  · rw [exec_shiftb, shiftByte_of_unsupported h0 h1]
    rfl

/-- Settles O36: SHIFTB keeps the buffer and the chain's length, and DISPLAY depends on nothing else. -/
theorem shiftbIsUnseenAfterDisplay : Obligations.ShiftbIsUnseenAfterDisplay := by
  unfold Obligations.ShiftbIsUnseenAfterDisplay
  intro s order v hinv
  have hshift := (exec_shiftb s order v).trans (congrArg Host.Outcome.next (transmit_shiftByte 0 order v s))
  have hdisplay := exec_display_of_length (exec_keeps_inv hinv hshift).sr_length
  exact ⟨_, displayed s, runCommands_two hshift hdisplay, exec_display_of_length hinv.sr_length,
    rfl, rfl, rfl, rfl, rfl, rfl⟩

/-- Settles O37: the events of a transmission do not depend on the power registers, and no event looks at them. -/
theorem transmissionIgnoresPower : Obligations.TransmissionIgnoresPower := by
  unfold Obligations.TransmissionIgnoresPower
  intro s i hv brt ind hi
  obtain ⟨hbuf, hpower⟩ : i.writesBuf = false ∧ i.isPower = false := by
    obtain rfl | ⟨order, v, rfl⟩ := hi <;> exact ⟨rfl, rfl⟩
  have hticks : commandTicks { s with hv := hv, brt := brt, ind := ind } i = commandTicks s i := by cases i <;> rfl
  refine ⟨_, exec_of_transmits hbuf hpower s, ?_⟩
  rw [exec_of_transmits hbuf hpower, hticks, emitAll_withPower]

end Sys2Proof.Proofs.Transmitter
end

section
/-! PROOFS of the statements of spec/42_power_brightness.md. First what the three commands set and how a level is seen;
then what is lit; then that no other command looks at the power registers; then the statements. -/

namespace Sys2Proof.Proofs.Power

open Sys2Proof.Machine Sys2Proof.Laws Sys2Proof.Proofs.Scope Sys2Proof.Proofs.Transmitter

/-! ## What the three commands set (R111, R112, R114) -/

section exec
variable (s : State)
theorem exec_sethv (on : Bool) : exec (.sethv on) s = .next { s with hv := on } := rfl
theorem exec_setbrt (level : BitVec 8) : exec (.setbrt level) s = .next { s with brt := level } := rfl
theorem exec_setind (level : BitVec 8) : exec (.setind level) s = .next { s with ind := level } := rfl
end exec

/-! ## How a level is seen -/

/-- A level through either kind of pin: as it is with pulse-width support, else all or nothing (R112, R114). -/
theorem visibleLevel_by_kind (pwm : Bool) (level : BitVec 8) :
    (pwm = true → visibleLevel pwm level = level.toNat) ∧
    (pwm = false → level = 0 → visibleLevel pwm level = 0) ∧
    (pwm = false → level ≠ 0 → visibleLevel pwm level = 255) := by
  refine ⟨?_, ?_, ?_⟩
  · rintro rfl
    rfl
  · rintro rfl rfl
    rfl
  · rintro rfl hlevel
    exact if_neg hlevel

/-- Some of a level is seen exactly when it is not 0, whatever the kind of pin. -/
theorem visibleLevel_pos_iff (pwm : Bool) (level : BitVec 8) : 0 < visibleLevel pwm level ↔ level ≠ 0 := by
  obtain ⟨hpwm, hzero, hnonzero⟩ := visibleLevel_by_kind pwm level
  cases pwm with
  | true =>
    rw [hpwm rfl, Nat.pos_iff_ne_zero]
    exact not_congr (BitVec.toNat_inj (y := 0))
  | false =>
    by_cases h : level = 0
    · rw [hzero rfl h]
      exact iff_of_false (Nat.lt_irrefl 0) (not_not_intro h)
    · rw [hnonzero rfl h]
      exact iff_of_true (by decide) h

/-! ## What is lit -/

/-- The three conditions of a lit wire; a wire beyond the chain has no visible bit and is dark (R113). -/
theorem lit_iff (s : State) (b q i : Nat) : s.lit b q i = true ↔
    s.vis[40 * b + 10 * q + i]? = some true ∧ s.hv = true ∧ 0 < s.effectiveBrightness := by
  have hbit : s.vis.getD (40 * b + 10 * q + i) false = true ↔ s.vis[40 * b + 10 * q + i]? = some true := by
    rw [List.getD_eq_getElem?_getD]
    cases s.vis[40 * b + 10 * q + i]? <;> simp
  rw [State.lit, Bool.and_eq_true, Bool.and_eq_true, decide_eq_true_iff, hbit, and_assoc]

/-! ## No other command looks at the power registers -/

theorem fillUnits_withPower (v : UnitValue) (us : List Nat) (s : State) (hv : Bool) (brt ind : BitVec 8) :
    State.fillUnits v us { s with hv := hv, brt := brt, ind := ind } =
      { State.fillUnits v us s with hv := hv, brt := brt, ind := ind } := by
  induction us generalizing s with
  | nil => rfl
  | cons u us ih => exact ih (s.writeUnit u v)

/-- An encoder or transmitter command does the same whatever the power registers hold, and leaves them so (R103,
R115). -/
theorem exec_withPower {i : Instr} (hi : i.isPower = false) (s : State) (hv : Bool) (brt ind : BitVec 8) :
    ∃ t, exec i s = .next t ∧
      exec i { s with hv := hv, brt := brt, ind := ind } = .next { t with hv := hv, brt := brt, ind := ind } := by
  cases i with
  | setnum number mask => exact ⟨_, exec_setnum s number mask, rfl⟩
  | settext c0 c1 c2 c3 => exact ⟨_, exec_settext s c0 c1 c2 c3, rfl⟩
  | clear fill => exact ⟨_, exec_clear s fill, congrArg Host.Outcome.next (fillUnits_withPower _ _ s hv brt ind)⟩
  | putunit index word => exact ⟨_, exec_putunit s index word, rfl⟩
  | display => exact transmissionIgnoresPower s .display hv brt ind (.inl rfl)
  | shiftb order v => exact transmissionIgnoresPower s (.shiftb order v) hv brt ind (.inr ⟨order, v, rfl⟩)
  | sethv | setbrt | setind => simp [Instr.isPower] at hi

/-! ## The statements -/

/-- Settles O42: the other command reaches one state with or without the power command before it, but for the power
registers, and these are all that the power command changes after it. -/
theorem powerCommandsCommute : Obligations.PowerCommandsCommute := by
  unfold Obligations.PowerCommandsCommute
  intro s p c hp hc
  obtain ⟨hv, brt, ind, hpower⟩ := exec_of_isPower hp s
  obtain ⟨t, hother, hotherAfter⟩ := exec_withPower hc s hv brt ind
  obtain ⟨hv', brt', ind', hpowerAfter⟩ := exec_of_isPower hp t
  exact ⟨_, _, runCommands_two hpower hotherAfter, runCommands_two hother hpowerAfter,
    rfl, rfl, rfl, rfl, rfl, rfl⟩

/-- Settles O38: a second SETHV finds the enable at its operand and sets it so again. -/
theorem sethvSetsTheEnable : Obligations.SethvSetsTheEnable := by
  unfold Obligations.SethvSetsTheEnable
  intro s on
  exact ⟨exec_sethv s on, runCommands_two (exec_sethv s on) (exec_sethv _ on)⟩

/-- Settles O39, by how a level is seen through the output-enable pin. -/
theorem setbrtSetsTheBrightness : Obligations.SetbrtSetsTheBrightness := by
  unfold Obligations.SetbrtSetsTheBrightness
  intro s level
  exact ⟨_, exec_setbrt s level, rfl, visibleLevel_by_kind s.platform.oePwm level⟩

/-- Settles O40, by how a level is seen through the indicator pin. -/
theorem setindSetsTheIndicator : Obligations.SetindSetsTheIndicator := by
  unfold Obligations.SetindSetsTheIndicator
  intro s level
  exact ⟨_, exec_setind s level, rfl, visibleLevel_by_kind s.platform.indPwm level⟩

/-- Settles O41, by the conditions of a lit wire and by when some of the brightness is seen. -/
theorem litNeedsPatternVoltageAndBrightness : Obligations.LitNeedsPatternVoltageAndBrightness := by
  unfold Obligations.LitNeedsPatternVoltageAndBrightness
  intro s b q i
  exact ⟨lit_iff s b q i, visibleLevel_pos_iff s.platform.oePwm s.brt⟩

end Sys2Proof.Proofs.Power
end

section
/-! PROOFS of the statements of spec/60_exceptions.md. First that no command stops; then each of the three silent
corrections, what is done instead and who it can happen to; then the operand that a correction leaves alone; then the
corrections of a word; then the statements. -/

namespace Sys2Proof.Proofs.Exceptions

open Sys2Proof.Machine Sys2Proof.Laws Sys2Proof.Proofs.Scope Sys2Proof.Proofs.Port Sys2Proof.Proofs.Encoding
  Sys2Proof.Proofs.DigitEncoder Sys2Proof.Proofs.Transmitter

/-! ## No command stops -/

/-- Every command completes, from every state (R120). -/
theorem exec_completes (i : Instr) (s : State) : ∃ t, exec i s = .next t := by
  obtain ⟨t, ht⟩ := exec_withPort i s
  exact ⟨_, ht s.port⟩

/-- Every step completes: idle, over a reserved word, and over a command (R120). -/
theorem step_completes (s : State) : ∃ t, step s = .next t := by
  cases hp : s.port with
  | nil => exact ⟨s, step_of_port_nil hp⟩
  | cons w rest =>
    cases hw : decode w with
    | reserved op => exact ⟨_, step_of_reserved hp hw⟩
    | command i =>
      rw [step_of_command hp hw]
      exact exec_completes i _

/-! ## What is done instead -/

/-- PUTUNIT sees its index only through the wrap (R122). -/
theorem exec_putunit_wrapIndex (index : BitVec 8) (word : RawWord) (s : State) :
    exec (.putunit index word) s = exec (.putunit (BitVec.ofNat 8 (wrapIndex s.boards index)) word) s := by
  rw [exec_putunit, exec_putunit, wrapIndex_wrapIndex]

/-- SHIFTB with an unsupported order sends nothing, and nothing changes (R123). -/
theorem exec_shiftb_of_unsupported {order : BitVec 4} (h0 : order ≠ 0) (h1 : order ≠ 1) (v : Byte) (s : State) :
    exec (.shiftb order v) s = .next s := by
  rw [exec_shiftb, shiftByte_of_unsupported h0 h1]
  rfl

/-- An order is unsupported exactly when it is at least 2, for 0 and 1 are the two below (R63, R123). -/
theorem two_le_order_iff (order : BitVec 4) : 2 ≤ order.toNat ↔ order ≠ 0 ∧ order ≠ 1 := by
  revert order
  decide

/-- A command does what it does with its operand corrected, and nothing where that is the correction (R127). -/
theorem exec_eq_exec_corrected (i : Instr) (s : State) :
    exec i s = (corrected s.boards i).elim (.next s) fun j => exec j s := by
  cases i with
  | setnum number mask => exact exec_setnum_clampNumber number mask s
  | putunit index word => exact exec_putunit_wrapIndex index word s
  | shiftb order byte =>
    rw [corrected]
    split
    · next h =>
      obtain ⟨h0, h1⟩ := (two_le_order_iff order).1 h
      exact exec_shiftb_of_unsupported h0 h1 byte s
    · rfl
  | settext | clear | display | sethv | setbrt | setind => rfl

/-! ## When a correction happens -/

/-- Only a SETNUM has its number clamped, and only a number out of range (R121). -/
theorem numericRange_mem_iff (n : BoardCount) (i : Instr) : Correction.numericRange ∈ operandCorrections n i ↔
    ∃ x m, i = .setnum x m ∧ (x < 0 ∨ 9999 < x) := by
  cases i with
  | setnum x m => simp [operandCorrections]
  | putunit | shiftb | settext | clear | display | sethv | setbrt | setind => simp [operandCorrections]

/-- Only a PUTUNIT has its index wrapped, and only an index of no unit (R122). -/
theorem unitIndex_mem_iff (n : BoardCount) (i : Instr) : Correction.unitIndex ∈ operandCorrections n i ↔
    ∃ x w, i = .putunit x w ∧ n.count ≤ x.toNat := by
  cases i with
  | putunit x w => simp [operandCorrections]
  | setnum | shiftb | settext | clear | display | sethv | setbrt | setind => simp [operandCorrections]

/-- Only a SHIFTB sends nothing for its order, and only for an order other than 0 and 1 (R123). -/
theorem bitOrder_mem_iff (n : BoardCount) (i : Instr) : Correction.bitOrder ∈ operandCorrections n i ↔
    ∃ o v, i = .shiftb o v ∧ o ≠ 0 ∧ o ≠ 1 := by
  cases i with
  | shiftb o v => simp [operandCorrections, two_le_order_iff]
  | setnum | putunit | settext | clear | display | sethv | setbrt | setind => simp [operandCorrections]

/-- One operand at most is corrected (R127). -/
theorem length_operandCorrections_le (n : BoardCount) (i : Instr) : (operandCorrections n i).length ≤ 1 := by
  cases i with
  | setnum | putunit | shiftb =>
    rw [operandCorrections]
    split <;> decide
  | settext | clear | display | sethv | setbrt | setind => exact Nat.zero_le 1

/-- The clamp keeps exactly the numbers in range (R74, R121). -/
theorem clampNumber_eq_self_iff (x : Int) : (clampNumber x : Int) = x ↔ ¬ (x < 0 ∨ 9999 < x) := by
  constructor
  · have := clampNumber_le x
    omega
  · intro h
    exact clampNumber_of_mem (by omega) (by omega)

/-- The wrap keeps exactly the indices of units (R62, R122). -/
theorem ofNat_wrapIndex_eq_self_iff (n : BoardCount) (index : BitVec 8) :
    BitVec.ofNat 8 (wrapIndex n index) = index ↔ index.toNat < n.count := by
  rw [← BitVec.toNat_inj, toNat_wrapIndex]
  exact ⟨fun h => h ▸ wrapIndex_lt n index, wrapIndex_of_lt⟩

/-- A command has nothing to correct exactly when its correction is the command itself (R127). -/
theorem operandCorrections_eq_nil_iff (n : BoardCount) (i : Instr) :
    operandCorrections n i = [] ↔ corrected n i = some i := by
  cases i with
  | setnum x m => simpa [operandCorrections, corrected] using (clampNumber_eq_self_iff x).symm
  | putunit index w => simpa [operandCorrections, corrected] using (ofNat_wrapIndex_eq_self_iff n index).symm
  | shiftb order v => simp [operandCorrections, corrected]
  | settext | clear | display | sethv | setbrt | setind => exact iff_of_true rfl rfl

/-- Correcting a corrected command changes nothing (R127). -/
theorem corrected_of_corrected {n : BoardCount} {i j : Instr} (h : corrected n i = some j) :
    corrected n j = some j := by
  cases i with
  | setnum x m =>
    cases h
    rw [corrected, clampNumber_clampNumber]
  | putunit index w =>
    cases h
    rw [corrected, wrapIndex_wrapIndex]
  | shiftb order v =>
    rw [corrected] at h
    split at h
    · cases h
    · next horder =>
      cases h
      exact if_neg horder
  | settext | clear | display | sethv | setbrt | setind =>
    cases h
    rfl

/-! ## The mask of SETNUM acts as it is given -/

/-- No decimal digit is the dark index, so a position tells whether it is visible (R50). -/
theorem visible_eq_of_maskedDigit_eq {a b : Bool} {x : Nat}
    (h : (if a then decimalDigit x else darkIndex) = if b then decimalDigit x else darkIndex) : a = b := by
  have hval := congrArg Fin.val h
  rw [val_maskedDigit, val_maskedDigit] at hval
  have hdigit : x % 10 ≠ 10 := by omega
  cases a <;> cases b
  · rfl
  · exact absurd hval.symm hdigit
  · exact absurd hval hdigit
  · rfl

theorem mask_eq_of_digits_eq {n : Int} {m m' : BitVec 4} (h : digits n m = digits n m') : m = m' := by
  obtain ⟨hk, hh, ht, hu⟩ := Positions.mk.inj h
  apply BitVec.eq_of_getLsbD_eq
  intro j hj
  match j, hj with
  | 0, _ => exact visible_eq_of_maskedDigit_eq hu
  | 1, _ => exact visible_eq_of_maskedDigit_eq ht
  | 2, _ => exact visible_eq_of_maskedDigit_eq hh
  | 3, _ => exact visible_eq_of_maskedDigit_eq hk

/-- With distinct patterns, different digits look different (R47). -/
theorem lookup_injective {tbl : PatternTable} (ht : tbl.Distinct) {d d' : Positions DigitIndex}
    (h : lookup tbl d = lookup tbl d') : d = d' := by
  obtain ⟨hk, hh, ht', hu⟩ := Positions.mk.inj h
  rw [Positions.mk.injEq]
  exact ⟨ht _ _ hk, ht _ _ hh, ht _ _ ht', ht _ _ hu⟩

/-- SETNUM of one number under two masks: unit 0 shows the digits, and the digits show the mask. -/
theorem exec_setnum_eq_iff {s : State} (hd : s.pattern.Distinct) (number : Int) (mask mask' : BitVec 4) :
    exec (.setnum number mask) s = exec (.setnum number mask') s ↔ mask = mask' := by
  refine ⟨fun h => ?_, fun h => by rw [h]⟩
  rw [exec_setnum, exec_setnum] at h
  have hshown := congrArg (fun t => unpack (State.unit t 0)) (Host.Outcome.next.inj h)
  simp only [unpack_unit_encodeNumber] at hshown
  exact mask_eq_of_digits_eq (lookup_injective hd hshown)

/-! ## The word of PUTUNIT acts as it is given -/

/-- PUTUNIT of two words to one index: the unit written holds the word's expansion. -/
theorem exec_putunit_eq_iff (s : State) (index : BitVec 8) (word word' : RawWord) :
    exec (.putunit index word) s = exec (.putunit index word') s ↔
      rawExpand s.platform.rawTable word = rawExpand s.platform.rawTable word' := by
  rw [exec_putunit, exec_putunit]
  refine ⟨fun h => ?_, fun h => by rw [h]⟩
  have hunit := congrArg (fun t => State.unit t (wrapIndex s.boards index)) (Host.Outcome.next.inj h)
  simpa only [State.unit, writeUnit_buf, readUnit_writeUnit_same] using hunit

/-! ## The byte of SHIFTB acts as it is given -/

/-- The events of a transmission tell its bits (R91). -/
theorem bits_eq_of_events_eq {bs bs' : List Bool} (h : bs.flatMap bitEvents = bs'.flatMap bitEvents) : bs = bs' := by
  induction bs generalizing bs' with
  | nil =>
    cases bs' with
    | nil => rfl
    | cons b' bs' => simp [bitEvents] at h
  | cons b bs ih =>
    cases bs' with
    | nil => simp [bitEvents] at h
    | cons b' bs' =>
      obtain ⟨hb, hbs⟩ : b = b' ∧ bs.flatMap bitEvents = bs'.flatMap bitEvents := by simpa [bitEvents] using h
      rw [hb, ih hbs]

/-- Either supported order sends every bit of the byte (R92). -/
theorem byte_eq_of_byteBits_eq {order : BitVec 4} (horder : order = 0 ∨ order = 1) {v v' : Byte}
    (h : byteBits order v = byteBits order v') : v = v' := by
  apply BitVec.eq_of_getLsbD_eq
  intro j hj
  obtain rfl | rfl := horder
  · rw [byteBits_lsb, byteBits_lsb] at h
    exact List.map_inj_left.1 h j (List.mem_range.2 hj)
  · rw [byteBits_msb, byteBits_msb] at h
    have hbit := List.map_inj_left.1 h (7 - j) (List.mem_range.2 (by omega))
    rwa [show 7 - (7 - j) = j by omega] at hbit

/-- SHIFTB of two bytes in one supported order: the trace tells the events, the events the bits, the bits the byte. -/
theorem exec_shiftb_eq_iff (s : State) {order : BitVec 4} (horder : order = 0 ∨ order = 1) (byte byte' : Byte) :
    exec (.shiftb order byte) s = exec (.shiftb order byte') s ↔ byte = byte' := by
  refine ⟨fun h => ?_, fun h => by rw [h]⟩
  rw [exec_shiftb, exec_shiftb, transmit_shiftByte, transmit_shiftByte] at h
  have htrace := congrArg State.trace (Host.Outcome.next.inj h)
  exact byte_eq_of_byteBits_eq horder (bits_eq_of_events_eq (List.append_cancel_left htrace))

/-! ## The corrections of a word -/

/-- The step over a presented command word is the command, on the state before the word was presented. -/
theorem step_present_of_command (s : State) {w : CmdWord} {i : Instr} (h : decode w = .command i) :
    step (s.present w) = exec i s :=
  step_of_command (present_port s w) h

/-- A command's word has its reserved bits corrected exactly when it is not the command's own, and then before the
operand (R127). -/
theorem wordCorrections_of_command {n : BoardCount} {w : CmdWord} {i : Instr} (h : decode w = .command i) :
    wordCorrections n w = (if w = encode i then [] else [.reservedBits]) ++ operandCorrections n i := by
  obtain ⟨-, henc⟩ := encode_of_decode h
  rw [wordCorrections, h, henc]
  simp only [eq_comm]

theorem wordCorrections_of_reserved {n : BoardCount} {w : CmdWord} {op : BitVec 4} (h : decode w = .reserved op) :
    wordCorrections n w = [.reservedOpcode] := by
  rw [wordCorrections, h]

/-! ## The statements -/

/-- Settles O24: a word is its command but for reserved bits, a command is its correction, a corrected command has
nothing to correct, and what SETNUM, PUTUNIT and SHIFTB leave tells their other operand. -/
theorem correctionsDoNotMeet : Obligations.CorrectionsDoNotMeet := by
  unfold Obligations.CorrectionsDoNotMeet
  refine ⟨fun s w i h => ⟨step_present_of_command s h, ?_, fun heq => ?_, fun hne => ?_⟩,
    fun s i => exec_eq_exec_corrected i s,
    fun n i j h => ⟨(operandCorrections_eq_nil_iff n j).2 (corrected_of_corrected h), corrected_of_corrected h⟩,
    fun n i => ⟨length_operandCorrections_le n i, operandCorrections_eq_nil_iff n i⟩,
    fun _ number mask mask' hd => exec_setnum_eq_iff hd number mask mask',
    exec_putunit_eq_iff,
    fun s _ byte byte' horder => exec_shiftb_eq_iff s horder byte byte',
    fun s w _ h => ⟨step_of_reserved (present_port s w) h, wordCorrections_of_reserved h⟩⟩
  · obtain ⟨hwf, -⟩ := encode_of_decode h
    exact step_present_congr s (h.trans (decode_encode hwf).symm)
  · rw [wordCorrections_of_command h, if_pos heq, List.nil_append]
  · rw [wordCorrections_of_command h, if_neg hne, List.singleton_append]

/-- Settles O23: what is done instead of each correction, and the one command each can happen to. -/
theorem silentCorrectionsReplaceTheOperand : Obligations.SilentCorrectionsReplaceTheOperand := by
  unfold Obligations.SilentCorrectionsReplaceTheOperand
  exact ⟨fun s n m _ => exec_setnum_clampNumber n m s, fun s index w _ => exec_putunit_wrapIndex index w s,
    fun s _ v h0 h1 => exec_shiftb_of_unsupported h0 h1 v s,
    fun n i => ⟨numericRange_mem_iff n i, unitIndex_mem_iff n i, bitOrder_mem_iff n i⟩⟩

/-- Settles O8, by the step with nothing at the port. -/
theorem idleKeepsAllState : Obligations.IdleKeepsAllState := by
  unfold Obligations.IdleKeepsAllState
  exact fun _ => step_of_port_nil

/-- Settles O9: every step and every command completes, and `Fault` has no constructor. -/
theorem noCommandStops : Obligations.NoCommandStops := by
  unfold Obligations.NoCommandStops
  exact ⟨step_completes, exec_completes, nofun⟩

end Sys2Proof.Proofs.Exceptions
end

section
/-! PROOFS of the statements of spec/70_reset_and_hazards.md that construction alone does not settle. First what DISPLAY
sends and shows while every unit is zero, as reset leaves them; then the statements. -/

namespace Sys2Proof.Proofs.Reset

open Sys2Proof.Machine Sys2Proof.Laws Sys2Proof.Proofs.Scope Sys2Proof.Proofs.Registers Sys2Proof.Proofs.Transmitter
  Sys2Proof.Proofs.Exceptions

/-! ## A buffer nothing was written to -/

/-- Every unit of a buffer that lists no byte is zero (R28). -/
theorem unit_of_buf_nil {s : State} (h : s.buf = []) (u : Nat) : s.unit u = 0#40 := by
  have hread : ∀ a, Memory.read [] a = 0#8 := fun _ => rfl
  rw [State.unit, h, Memory.readUnit]
  simp only [hread]
  rfl

section zero
variable {s : State} (h : ∀ u, s.unit u = 0#40)
include h

theorem unitBits_of_zero : unitBits s = List.replicate (40 * s.boards.count) false := by
  refine List.eq_replicate_iff.2 ⟨length_unitBits s, fun b hb => ?_⟩
  obtain ⟨k, -, rfl⟩ := List.mem_map.1 hb
  rw [h, BitVec.getLsbD_zero]

/-- Zero units are sent as so many zero bits, and then latched (R95). -/
theorem displayEvents_of_zero : displayEvents s =
    (List.replicate (40 * s.boards.count) (bitEvents false)).flatten ++ latchEvents := by
  rw [displayEvents, unitBits_of_zero h, List.flatMap_replicate]

/-- Under `DARK_ZERO` a zero unit shows the dark pattern at each of its fields (R48, R101). -/
theorem visPattern_displayed_of_zero {tbl : PatternTable} (htbl : tbl.DarkZero) {b q : Nat}
    (hb : b < s.boards.count) (hq : q < 4) :
    (displayed s).visPattern b q = (List.range 10).map (tbl.get 10).getLsbD := by
  have hdark : tbl.get 10 = 0#10 := htbl
  rw [visPattern_of_unitBits rfl hb hq, h, hdark]
  exact List.map_congr_left fun _ _ => BitVec.getLsbD_zero.trans BitVec.getLsbD_zero.symm

end zero

/-! ## The statements -/

/-- Settles O55: after reset every unit is zero and the chain has the boards' length, so DISPLAY replaces all that the
draw put there by zeros. -/
theorem firstDisplayAfterResetIsBlank : Obligations.FirstDisplayAfterResetIsBlank := by
  unfold Obligations.FirstDisplayAfterResetIsBlank
  intro n pins tbl p d s hs
  obtain ⟨b, rfl, rfl⟩ := construct_eq_next_iff.1 hs
  have hzero : ∀ u, (constructed b pins tbl p d).unit u = 0#40 := unit_of_buf_nil rfl
  exact ⟨fun i => exec_completes i _, displayed (constructed b pins tbl p d),
    exec_display_of_length (length_bitsOf _ _), unitBits_of_zero hzero, displayEvents_of_zero hzero,
    fun htbl _ _ hb hq => visPattern_displayed_of_zero hzero htbl hb hq⟩

/-- Settles O51: a bad count is outside the range that construction asks for. -/
theorem constructionRefusesABadCount : Obligations.ConstructionRefusesABadCount := by
  unfold Obligations.ConstructionRefusesABadCount
  intro n pins tbl p d hn
  have hbad : ¬ (1 ≤ n ∧ n ≤ 255) := by omega
  exact dif_neg hbad

end Sys2Proof.Proofs.Reset
end

section
/-! PROOF that the model's one reset state is a construction (notes/assumptions 3, 4, 5). -/

namespace Sys2Proof.Proofs.ResetState

open Sys2Proof.Machine Sys2Proof.Proofs.Registers

theorem bitsOf_zero (n : Nat) : bitsOf n 0 = List.replicate n false := by
  refine List.eq_replicate_iff.2 ⟨length_bitsOf n 0, fun b hb => ?_⟩
  obtain ⟨k, -, rfl⟩ := List.mem_map.1 hb
  exact Nat.zero_testBit k

/-- With a draw of zeros the default construction's chain and outputs are zero, as the reset state lists them. -/
theorem reset_eq_constructed : State.reset = constructed BoardCount.default Config.pins Config.pattern Config.platform
    ⟨false, false, false, false, 0, 0, 0, 0⟩ := by
  have hbits : bitsOf (40 * BoardCount.default.count) 0 = List.replicate 40 false := bitsOf_zero 40
  rw [constructed, hbits, State.reset]

/-- Settles O52: one board is the default count, and the draw of zeros gives the reset state's other fields. -/
theorem resetIsTheDefaultConstruction : Obligations.ResetIsTheDefaultConstruction := by
  unfold Obligations.ResetIsTheDefaultConstruction
  exact construct_eq_next_iff.2 ⟨BoardCount.default, rfl, reset_eq_constructed⟩

end Sys2Proof.Proofs.ResetState
end
